-- ==== Sys2Proof/Word.lean ====
section
/-! DEFINITION. The words of the machine: bytes, 16-bit words, instruction fields, register names. -/

namespace Sys2Proof

/-- A memory byte or the value of a general register (10_state R20). -/
abbrev Byte := BitVec 8

/-- The value of I, pc, a return address, or an instruction word (10_state R20, 30_encoding R70). -/
abbrev Word := BitVec 16

/-- One 4-bit slice of an instruction word (30_encoding R71). -/
abbrev Nibble := BitVec 4

/-- The 12-bit address immediate NNN (30_encoding R72). -/
abbrev Addr12 := BitVec 12

/-- The name of a general register V0..VF, index 0..15 (10_state R21). -/
abbrev Reg := Fin 16

/-- A key code 0..15 (44_timer_input R235). -/
abbrev KeyCode := Fin 16

/-- The flag register VF, index 15 (10_state R23). -/
abbrev Reg.vf : Reg := 15

end Sys2Proof
end

