-- ==== Sys2Proof/Syntax.lean ====
section
/-! DEFINITION. The instructions: one constructor per row of spec/opcode_table.json (30_encoding R75), with the
operand fields of R72. -/

namespace Sys2Proof

/-- One instruction of the 35 of 30_encoding R75, in that rule's order. -/
inductive Instr where
  /-- 00EE, return from subroutine (40_control_flow R100). -/
  | ret
  /-- 00E0, clear the display (43_display R210). -/
  | cls
  /-- 0NNN, call machine code at NNN: a no-op (R101). -/
  | sys (nnn : Addr12)
  /-- 1NNN, jump (R102). -/
  | jp (nnn : Addr12)
  /-- 2NNN, call subroutine (R103). -/
  | call (nnn : Addr12)
  /-- 3XNN, skip if Vx = NN (R105). -/
  | seImm (x : Reg) (nn : Byte)
  /-- 4XNN, skip if Vx ≠ NN (R106). -/
  | sneImm (x : Reg) (nn : Byte)
  /-- 5XY0, skip if Vx = Vy (R107). `z` is the low nibble, which the decoder does not test (R76). -/
  | seReg (x y : Reg) (z : Nibble)
  /-- 6XNN, Vx = NN (41_alu R140). -/
  | ldImm (x : Reg) (nn : Byte)
  /-- 7XNN, Vx += NN (R141). -/
  | addImm (x : Reg) (nn : Byte)
  /-- 8XY0, Vx = Vy (R142). -/
  | ldReg (x y : Reg)
  /-- 8XY1, Vx = Vx OR Vy (R143). -/
  | orReg (x y : Reg)
  /-- 8XY2, Vx = Vx AND Vy (R144). -/
  | andReg (x y : Reg)
  /-- 8XY3, Vx = Vx XOR Vy (R145). -/
  | xorReg (x y : Reg)
  /-- 8XY4, Vx += Vy with carry (R146). -/
  | addReg (x y : Reg)
  /-- 8XY5, Vx -= Vy, saturating, with borrow (R147). -/
  | subReg (x y : Reg)
  /-- 8XY6, Vx >>= 1. The y field is encoded and not read (R148). -/
  | shr (x y : Reg)
  /-- 8XY7, Vx = Vy - Vx (R149). -/
  | subnReg (x y : Reg)
  /-- 8XYE, Vx <<= 1. The y field is encoded and not read (R150). -/
  | shl (x y : Reg)
  /-- 9XY0, skip if Vx ≠ Vy (40_control_flow R108). `z` is the undecoded low nibble (R76). -/
  | sneReg (x y : Reg) (z : Nibble)
  /-- ANNN, I = NNN (42_addressing R180). -/
  | ldI (nnn : Addr12)
  /-- BNNN, jump to NNN + V0 (40_control_flow R109). -/
  | jpV0 (nnn : Addr12)
  /-- CXNN, Vx = random AND NN (41_alu R151). -/
  | rnd (x : Reg) (nn : Byte)
  /-- DXYN, draw a sprite of N rows (43_display R213). -/
  | drw (x y : Reg) (n : Nibble)
  /-- EX9E, skip if the key in Vx is pressed (44_timer_input R230). -/
  | skp (x : Reg)
  /-- EXA1, skip if the key in Vx is not pressed (R231). -/
  | sknp (x : Reg)
  /-- FX07, Vx = DT (R232). -/
  | ldVxDT (x : Reg)
  /-- FX0A, block until a key is pressed (R240). -/
  | ldVxK (x : Reg)
  /-- FX15, DT = Vx (R233). -/
  | ldDTVx (x : Reg)
  /-- FX18, ST = Vx (R234). -/
  | ldSTVx (x : Reg)
  /-- FX1E, I += Vx (42_addressing R181). -/
  | addI (x : Reg)
  /-- FX29, I = font address of digit Vx (R182). -/
  | ldF (x : Reg)
  /-- FX33, store the BCD of Vx (R183). -/
  | ldB (x : Reg)
  /-- FX55, store V0..Vx (R184). -/
  | ldMemVx (x : Reg)
  /-- FX65, load V0..Vx (R185). -/
  | ldVxMem (x : Reg)
deriving DecidableEq, Repr

end Sys2Proof
end

