-- ==== Sys2Proof/Decode.lean ====
section
/-! DEFINITION. Decoding one instruction word (30_encoding R70 to R77), the encoder, and the rows of R75 as match
and mask. The patterns of 28 of the 35 classes and the field positions are the spec's own, PRESUMED by it from general
knowledge (R72, R75, D3): unsafe (log 10). -/

namespace Sys2Proof

/-- Why bytes are no instruction: by name. -/
inductive DecodeError where
  /-- No row of R75 matches the word (30_encoding R77): the Step's outcome is Unknown. -/
  | unknownOpcode (w : Word)
  /-- Fewer than the two bytes of an instruction (R70). -/
  | truncated
deriving DecidableEq, Repr

/-! The fields of a word (30_encoding R71, R72). -/

/-- n0, bits 15..12. -/
def field0 (w : Word) : Nibble := w.extractLsb' 12 4
/-- n1, bits 11..8. -/
def field1 (w : Word) : Nibble := w.extractLsb' 8 4
/-- n2, bits 7..4. -/
def field2 (w : Word) : Nibble := w.extractLsb' 4 4
/-- n3, bits 3..0: also the row count `n`. -/
def field3 (w : Word) : Nibble := w.extractLsb' 0 4
/-- `x`, the register named by n1. -/
def fieldX (w : Word) : Reg := (field1 w).toFin
/-- `y`, the register named by n2. -/
def fieldY (w : Word) : Reg := (field2 w).toFin
/-- `nn`, bits 7..0. -/
def fieldNN (w : Word) : Byte := w.extractLsb' 0 8
/-- `nnn`, bits 11..0. -/
def fieldNNN (w : Word) : Addr12 := w.extractLsb' 0 12

/-- Family 0: the two exact words, else 0NNN (30_encoding R76). -/
def decode0 (w : Word) : Instr :=
  if w = 0x00EE#16 then .ret else if w = 0x00E0#16 then .cls else .sys (fieldNNN w)

/-- Family 8, selected by n3 (R76). -/
def decode8 (w : Word) : Except DecodeError Instr :=
  match (field3 w).toNat with
  | 0x0 => .ok (.ldReg (fieldX w) (fieldY w))
  | 0x1 => .ok (.orReg (fieldX w) (fieldY w))
  | 0x2 => .ok (.andReg (fieldX w) (fieldY w))
  | 0x3 => .ok (.xorReg (fieldX w) (fieldY w))
  | 0x4 => .ok (.addReg (fieldX w) (fieldY w))
  | 0x5 => .ok (.subReg (fieldX w) (fieldY w))
  | 0x6 => .ok (.shr (fieldX w) (fieldY w))
  | 0x7 => .ok (.subnReg (fieldX w) (fieldY w))
  | 0xE => .ok (.shl (fieldX w) (fieldY w))
  | _ => .error (.unknownOpcode w)

/-- Family E, selected by the low byte (R76). -/
def decodeE (w : Word) : Except DecodeError Instr :=
  match (fieldNN w).toNat with
  | 0x9E => .ok (.skp (fieldX w))
  | 0xA1 => .ok (.sknp (fieldX w))
  | _ => .error (.unknownOpcode w)

/-- Family F, selected by the low byte (R76). -/
def decodeF (w : Word) : Except DecodeError Instr :=
  match (fieldNN w).toNat with
  | 0x07 => .ok (.ldVxDT (fieldX w))
  | 0x0A => .ok (.ldVxK (fieldX w))
  | 0x15 => .ok (.ldDTVx (fieldX w))
  | 0x18 => .ok (.ldSTVx (fieldX w))
  | 0x1E => .ok (.addI (fieldX w))
  | 0x29 => .ok (.ldF (fieldX w))
  | 0x33 => .ok (.ldB (fieldX w))
  | 0x55 => .ok (.ldMemVx (fieldX w))
  | 0x65 => .ok (.ldVxMem (fieldX w))
  | _ => .error (.unknownOpcode w)

/-- Decode one word by the rows of R75 as R76 reads them. Families 5 and 9 are selected by n0 alone, so every low
nibble decodes (R76, D4: log 11). -/
def decodeWord (w : Word) : Except DecodeError Instr :=
  match (field0 w).toNat with
  | 0x0 => .ok (decode0 w)
  | 0x1 => .ok (.jp (fieldNNN w))
  | 0x2 => .ok (.call (fieldNNN w))
  | 0x3 => .ok (.seImm (fieldX w) (fieldNN w))
  | 0x4 => .ok (.sneImm (fieldX w) (fieldNN w))
  | 0x5 => .ok (.seReg (fieldX w) (fieldY w) (field3 w))
  | 0x6 => .ok (.ldImm (fieldX w) (fieldNN w))
  | 0x7 => .ok (.addImm (fieldX w) (fieldNN w))
  | 0x8 => decode8 w
  | 0x9 => .ok (.sneReg (fieldX w) (fieldY w) (field3 w))
  | 0xA => .ok (.ldI (fieldNNN w))
  | 0xB => .ok (.jpV0 (fieldNNN w))
  | 0xC => .ok (.rnd (fieldX w) (fieldNN w))
  | 0xD => .ok (.drw (fieldX w) (fieldY w) (field3 w))
  | 0xE => decodeE w
  | _ => decodeF w

/-- The word of two bytes, high byte first (20_memory R56). -/
def wordOfBytes (hi lo : Byte) : Word := hi ++ lo

/-- Decode the first instruction of any bytes, with the bytes that follow it. An instruction is always two bytes
(30_encoding R70). -/
def decode : List Byte → Except DecodeError (Instr × List Byte)
  | hi :: lo :: rest =>
    match decodeWord (wordOfBytes hi lo) with
    | .ok i => .ok (i, rest)
    | .error e => .error e
  | _ => .error .truncated

/-! The encoder, from the formats of R73 and the patterns of R75. -/

/-- The nibble that names a register. -/
def regNibble (r : Reg) : Nibble := BitVec.ofFin r

/-- Format NNN (R73). -/
def encNNN (op : Nibble) (nnn : Addr12) : Word := op ++ nnn
/-- Format XNN (R73). -/
def encXNN (op : Nibble) (x : Reg) (nn : Byte) : Word := op ++ ((regNibble x ++ nn : BitVec 12))
/-- Formats XY and XYN (R73). -/
def encXYN (op : Nibble) (x y : Reg) (n : Nibble) : Word :=
  op ++ ((regNibble x ++ ((regNibble y ++ n : BitVec 8)) : BitVec 12))

/-- The word of an instruction. -/
def encode : Instr → Word
  | .ret => 0x00EE
  | .cls => 0x00E0
  | .sys nnn => encNNN 0x0 nnn
  | .jp nnn => encNNN 0x1 nnn
  | .call nnn => encNNN 0x2 nnn
  | .seImm x nn => encXNN 0x3 x nn
  | .sneImm x nn => encXNN 0x4 x nn
  | .seReg x y z => encXYN 0x5 x y z
  | .ldImm x nn => encXNN 0x6 x nn
  | .addImm x nn => encXNN 0x7 x nn
  | .ldReg x y => encXYN 0x8 x y 0x0
  | .orReg x y => encXYN 0x8 x y 0x1
  | .andReg x y => encXYN 0x8 x y 0x2
  | .xorReg x y => encXYN 0x8 x y 0x3
  | .addReg x y => encXYN 0x8 x y 0x4
  | .subReg x y => encXYN 0x8 x y 0x5
  | .shr x y => encXYN 0x8 x y 0x6
  | .subnReg x y => encXYN 0x8 x y 0x7
  | .shl x y => encXYN 0x8 x y 0xE
  | .sneReg x y z => encXYN 0x9 x y z
  | .ldI nnn => encNNN 0xA nnn
  | .jpV0 nnn => encNNN 0xB nnn
  | .rnd x nn => encXNN 0xC x nn
  | .drw x y n => encXYN 0xD x y n
  | .skp x => encXNN 0xE x 0x9E
  | .sknp x => encXNN 0xE x 0xA1
  | .ldVxDT x => encXNN 0xF x 0x07
  | .ldVxK x => encXNN 0xF x 0x0A
  | .ldDTVx x => encXNN 0xF x 0x15
  | .ldSTVx x => encXNN 0xF x 0x18
  | .addI x => encXNN 0xF x 0x1E
  | .ldF x => encXNN 0xF x 0x29
  | .ldB x => encXNN 0xF x 0x33
  | .ldMemVx x => encXNN 0xF x 0x55
  | .ldVxMem x => encXNN 0xF x 0x65

/-- The two bytes of a word as memory holds them, high byte first (20_memory R56). -/
def wordBytes (w : Word) : List Byte := [w.extractLsb' 8 8, w.extractLsb' 0 8]

/-- The bytes of an instruction in memory. -/
def encodeBytes (i : Instr) : List Byte := wordBytes (encode i)

/-! The rows of 30_encoding R75 as match and mask. -/

/-- The `match` column of an instruction's row of R75. -/
def Instr.rowMatch : Instr → Word
  | .ret => 0x00EE
  | .cls => 0x00E0
  | .sys _ => 0x0000
  | .jp _ => 0x1000
  | .call _ => 0x2000
  | .seImm _ _ => 0x3000
  | .sneImm _ _ => 0x4000
  | .seReg _ _ _ => 0x5000
  | .ldImm _ _ => 0x6000
  | .addImm _ _ => 0x7000
  | .ldReg _ _ => 0x8000
  | .orReg _ _ => 0x8001
  | .andReg _ _ => 0x8002
  | .xorReg _ _ => 0x8003
  | .addReg _ _ => 0x8004
  | .subReg _ _ => 0x8005
  | .shr _ _ => 0x8006
  | .subnReg _ _ => 0x8007
  | .shl _ _ => 0x800E
  | .sneReg _ _ _ => 0x9000
  | .ldI _ => 0xA000
  | .jpV0 _ => 0xB000
  | .rnd _ _ => 0xC000
  | .drw _ _ _ => 0xD000
  | .skp _ => 0xE09E
  | .sknp _ => 0xE0A1
  | .ldVxDT _ => 0xF007
  | .ldVxK _ => 0xF00A
  | .ldDTVx _ => 0xF015
  | .ldSTVx _ => 0xF018
  | .addI _ => 0xF01E
  | .ldF _ => 0xF029
  | .ldB _ => 0xF033
  | .ldMemVx _ => 0xF055
  | .ldVxMem _ => 0xF065

/-- The `mask` column of an instruction's row of R75. -/
def Instr.rowMask : Instr → Word
  | .ret | .cls => 0xFFFF
  | .ldReg _ _ | .orReg _ _ | .andReg _ _ | .xorReg _ _ | .addReg _ _ | .subReg _ _ | .shr _ _ | .subnReg _ _
  | .shl _ _ => 0xF00F
  | .skp _ | .sknp _ | .ldVxDT _ | .ldVxK _ | .ldDTVx _ | .ldSTVx _ | .addI _ | .ldF _ | .ldB _ | .ldMemVx _
  | .ldVxMem _ => 0xF0FF
  | .sys _ | .jp _ | .call _ | .seImm _ _ | .sneImm _ _ | .seReg _ _ _ | .ldImm _ _ | .addImm _ _ | .sneReg _ _ _
  | .ldI _ | .jpV0 _ | .rnd _ _ | .drw _ _ _ => 0xF000

/-- The words an instruction's row of R75 leaves out: 0x00E0 and 0x00EE for 0NNN, the one row whose match is 0. -/
def Instr.rowExcludes (i : Instr) : List Word :=
  if i.rowMatch = 0x0000 then [0x00E0, 0x00EE] else []

/-- A word matches an instruction's row of R75: "A word w matches a row when `(w & mask) == match`", less the words
row 3 leaves out. -/
def Instr.rowMatches (i : Instr) (w : Word) : Bool :=
  w &&& i.rowMask == i.rowMatch && !(i.rowExcludes.contains w)

/-! The host's questions, in the numbering of spec/opcode_table.json. -/

/-- The word of an instruction whose bits are `w`, numbered as the table numbers them; the bits at `nbits` and above
are zero. -/
def tableWord (nbits w : Nat) : Word := BitVec.ofNat 16 (w % 2 ^ nbits)

/-- What the decoder reads from an instruction whose bits are `w`, laid out as memory holds it. -/
def decodeTableWord (nbits w : Nat) : Option Instr :=
  match decode (wordBytes (tableWord nbits w)) with
  | .ok (i, _) => some i
  | .error _ => none

end Sys2Proof
end

