-- ==== Sys2Proof/Config.lean ====
section
/-! DEFINITION. What an implementation fixes (the spec's three parameters) and the free values. -/

namespace Sys2Proof

/-- UNKNOWN_POLICY: what the host does after an Unknown outcome (00_scope R11, 60_exceptions R266). -/
inductive UnknownPolicy where
  /-- The host ends the session. -/
  | halt
  /-- The host may issue SkipUnknown. -/
  | skip
deriving DecidableEq, Repr

/-- The parameters a model takes as arguments (00_scope R9, R10, R11). State holds them and no step changes them
(log 1). -/
structure Config where
  /-- STACK_CAPACITY, the number of return addresses the call stack holds (R9). -/
  stackCapacity : Nat
  /-- FONT: glyph d is bytes 5d..5d+4, top row first (R10). -/
  font : Vector (Vector Byte 5) 16
  /-- UNKNOWN_POLICY (R11). -/
  unknownPolicy : UnknownPolicy
deriving DecidableEq, Repr

/-- STACK_CAPACITY is a positive integer (00_scope R9). -/
def Config.wf (c : Config) : Bool := decide (0 < c.stackCapacity)

/-- The default FONT (10_state R36): PRESUMED by the spec from general knowledge, unsafe (log 3). -/
def Config.defaultFont : Vector (Vector Byte 5) 16 :=
  #v[#v[0xF0, 0x90, 0x90, 0x90, 0xF0], #v[0x20, 0x60, 0x20, 0x20, 0x70],
     #v[0xF0, 0x10, 0xF0, 0x80, 0xF0], #v[0xF0, 0x10, 0xF0, 0x10, 0xF0],
     #v[0x90, 0x90, 0xF0, 0x10, 0x10], #v[0xF0, 0x80, 0xF0, 0x10, 0xF0],
     #v[0xF0, 0x80, 0xF0, 0x90, 0xF0], #v[0xF0, 0x10, 0x20, 0x40, 0x40],
     #v[0xF0, 0x90, 0xF0, 0x90, 0xF0], #v[0xF0, 0x90, 0xF0, 0x10, 0xF0],
     #v[0xF0, 0x90, 0xF0, 0x90, 0x90], #v[0xE0, 0x90, 0xE0, 0x90, 0xE0],
     #v[0xF0, 0x80, 0x80, 0x80, 0xF0], #v[0xE0, 0x90, 0x90, 0x90, 0xE0],
     #v[0xF0, 0x80, 0xF0, 0x80, 0xF0], #v[0xF0, 0x80, 0xF0, 0x80, 0x80]]

/-- The parameters at reset: the spec's default STACK_CAPACITY 16 (R9, log 2) and FONT (R36, log 3); the policy
`skip` is a DESIGN CHOICE, unsafe (log 4). -/
def Config.standard : Config :=
  { stackCapacity := 16, font := Config.defaultFont, unknownPolicy := .skip }

/-- The byte `Create` writes at address `a` when the ROM does not cover it: FONT at 0x000..0x04F, zero elsewhere
(10_state R37, 20_memory R51). It is also what an unlisted address of memory reads as. -/
def Config.initialByte (c : Config) (a : Nat) : Byte :=
  if h : a < 80 then (c.font[a / 5])[a % 5] else 0

/-- FREE VALUE: the KEYS of a Step for which the host's list gives none (44_timer_input R235: "a free draw per
Step"). No body, so nothing can be proved of it (log 5). -/
opaque Config.freeKeys : Nat → BitVec 16

/-- FREE VALUE: the RND of a Step for which the host's list gives none (60_exceptions R281: "a free 8-bit draw per
Step"). No body, so nothing can be proved of it (log 5). -/
opaque Config.freeRnd : Nat → Byte

end Sys2Proof
end

