-- ==== Sys2Proof/Machine/State.lean ====
section
/-! DEFINITION. The state of the machine as plain data, the errors, the reasons a transaction has no transition, and
the state after reset. -/

namespace Sys2Proof.Machine

/-- The error taxonomy of 60_exceptions R262. -/
inductive EngineError where
  /-- Code 1. Raised by `State.create`; no state is produced (R267). -/
  | romTooLarge
  /-- Code 2. Raised by 2NNN on a full stack. -/
  | stackOverflow
  /-- Code 3. Raised by 00EE on an empty stack. -/
  | stackUnderflow
  /-- Code 4. Raised by FX29 when Vx > 0xF. -/
  | invalidFontIndex
  /-- Code 5. Any unknown word; recoverable: the Step's outcome is Unknown (R265). -/
  | unknownOpcode
  /-- Code 6. Raised through NextPC when the new pc is 0x1000 or more. -/
  | pcOutOfRange
  /-- Code 7. Raised through NextPC when the new pc is odd. -/
  | pcMisaligned
  /-- Code 8. Raised by an access above 0xFFF. -/
  | memoryOutOfBounds
  /-- Code 9. Raised by EX9E and EXA1 when Vx > 0xF. -/
  | invalidKeyIndex
deriving DecidableEq, Repr

/-- The outcome tags (60_exceptions R260). -/
inductive Tag where
  | normal
  | displayDirty
  | keyQuery
  | keyWaitBlocked
  | unknown
deriving DecidableEq, Repr

/-- The run status (10_state R34). -/
inductive Status where
  | running
  | halted (e : EngineError)
deriving DecidableEq, Repr

/-- What the last transaction returned to the host (R260, R286). -/
inductive Report where
  /-- Create, Tick, SkipUnknown and Destroy return nothing. -/
  | nothing
  /-- A Step's outcome tag. -/
  | outcome (t : Tag)
  /-- A fatal error. -/
  | fatal (e : EngineError)
deriving DecidableEq, Repr

/-- The transactions the host issues on a state (00_scope R7). `Create` makes a new state: `State.create`. -/
inductive Transaction where
  /-- Step(KEYS, RND): one instruction (70_reset R305). Bit k of `keys` is key code k (44_timer_input R235). -/
  | step (keys : BitVec 16) (rnd : Byte)
  /-- Tick(): the timers count down (60_exceptions R275). -/
  | tick
  /-- SkipUnknown(): pc passes an unknown word (R266). -/
  | skipUnknown
  /-- Destroy(): the session ends (70_reset R303). -/
  | destroy
deriving DecidableEq, Repr

/-- Memory: the bytes that differ from what `Create` puts at their address, as (address, byte), addresses rising. -/
abbrev Memory := List Host.Cell

/-- The display: `Disp[x][y]`, column x of 64, row y of 32, true is on (10_state R32, D25). -/
abbrev Display := Vector (Vector Bool 32) 64

/-- The whole state. The fields `mem` to `status` are the spec's (10_state R20); `cfg` is its parameters (00_scope R9 to
R11); `pending`, `draws`, `report` and `destroyed` are the model's own (log 5, 6, 7, 9). -/
structure State where
  /-- `Mem` (R33). -/
  mem : Memory
  /-- `V[0..15]` (R21). -/
  v : Vector Byte 16
  /-- `I` (R25). -/
  i : Word
  /-- `pc` (R26). -/
  pc : Word
  /-- `Stack[0..STACK_CAPACITY-1]`, slot 0 first (R28). -/
  stack : List Word
  /-- `SP`: -1 when the stack is empty, else the slot on top (R28, D31). -/
  sp : Int
  /-- `DT` (R31). -/
  dt : Byte
  /-- `ST` (R31). -/
  st : Byte
  /-- `Disp` (R32). -/
  disp : Display
  /-- `status` (R34). -/
  status : Status
  /-- STACK_CAPACITY, FONT and UNKNOWN_POLICY: no transaction changes them. -/
  cfg : Config
  /-- The transactions the host will issue, the next one first; when there is none it issues Steps with free inputs. -/
  pending : List Transaction
  /-- How many Steps have taken free inputs. -/
  draws : Nat
  /-- What the last transaction returned. -/
  report : Report
  /-- Whether Destroy was issued. -/
  destroyed : Bool
deriving DecidableEq, Repr

/-- Why a transaction has no transition. No instruction raises one. -/
inductive Fault where
  /-- A Step, Tick or SkipUnknown in a Halted state, which "have no transition" (60_exceptions R263; `stuck` in
  93_implementation_defined item 14). Raised by `transact`. Safe. -/
  | sessionHalted (e : EngineError)
  /-- Any transaction after Destroy: "no transaction applies to that state" (70_reset R303). Raised by `transact`.
  Safe. -/
  | sessionDestroyed
deriving DecidableEq, Repr

/-- What the model gives no meaning. -/
inductive Refusal where
  /-- An instruction without a meaning yet. Raised by no arm of `exec`: every instruction has its meaning. Safe. -/
  | notModelled (mnemonic : String)
  /-- SkipUnknown where the host may not issue it: not directly after a Step that returned Unknown, or under the policy
  halt (60_exceptions R266). Raised by `skipUnknown`. Safe (log 35). -/
  | skipUnknownNotAllowed
deriving DecidableEq, Repr

/-- What a transaction answers. -/
abbrev Result := Host.Outcome State Fault Refusal

/-- The display with every pixel off. -/
def Display.blank : Display := Vector.replicate 64 (Vector.replicate 32 false)

/-- The state after `Create` of an empty ROM with the parameters `c` (10_state R37, 70_reset R300). -/
def State.fresh (c : Config) : State :=
  { mem := []
    v := Vector.replicate 16 0
    i := 0x0000
    pc := 0x0200
    stack := List.replicate c.stackCapacity 0
    sp := -1
    dt := 0
    st := 0
    disp := Display.blank
    status := .running
    cfg := c
    pending := []
    draws := 0
    report := .nothing
    destroyed := false }

/-- The machine right after reset: `Create` of an empty ROM, with the parameters of `Config.standard` (log 1 to 6, 25). -/
def State.reset : State := State.fresh Config.standard

end Sys2Proof.Machine
end

