-- ==== Sys2Proof/Machine/Ops.lean ====
section
/-! DEFINITION. The named operations over the state: memory, registers, pc, stack, the inputs of a Step, fetch, raising a
fatal error, completing an instruction. -/

namespace Sys2Proof.Machine

/-! Memory as a canonical list. `base` gives what an unlisted address reads as. -/

/-- The byte at an address. -/
def Memory.read (base : Nat → Byte) : Memory → Nat → Byte
  | [], a => base a
  | (b, w) :: rest, a => if a = b then w else Memory.read base rest a

/-- Store a byte: an entry equal to what an unlisted address reads as is not kept, and addresses stay rising. -/
def Memory.write (base : Nat → Byte) : Memory → Nat → Byte → Memory
  | [], a, v => if v = base a then [] else [(a, v)]
  | (b, w) :: rest, a, v =>
    if a < b then (if v = base a then (b, w) :: rest else (a, v) :: (b, w) :: rest)
    else if a = b then (if v = base a then rest else (a, v) :: rest)
    else (b, w) :: Memory.write base rest a v

/-- Every listed address is at least `lo`, below 0x1000, smaller than the next, and its byte differs from the base. -/
def Memory.wfFrom (base : Nat → Byte) : Nat → Memory → Bool
  | _, [] => true
  | lo, (a, v) :: rest =>
    decide (lo ≤ a) && decide (a < 0x1000) && decide (v ≠ base a) && Memory.wfFrom base (a + 1) rest

/-- The canonical form of memory. -/
def Memory.wf (base : Nat → Byte) (m : Memory) : Bool := Memory.wfFrom base 0 m

/-- The byte the machine's memory holds at an address. -/
def State.peek (s : State) (a : Nat) : Byte := Memory.read s.cfg.initialByte s.mem a

/-- Put a byte at an address, unchecked. -/
def State.poke (s : State) (a : Nat) (b : Byte) : State :=
  { s with mem := Memory.write s.cfg.initialByte s.mem a b }

/-- Put bytes at consecutive ascending addresses, unchecked. -/
def State.pokeBytes (s : State) (a : Nat) : List Byte → State
  | [] => s
  | b :: bs => (s.poke a b).pokeBytes (a + 1) bs

/-- MemRead(addr, 1) (20_memory R53): the address is exact. -/
def State.memRead (s : State) (a : Nat) : Except EngineError Byte :=
  if 0xFFF < a then .error .memoryOutOfBounds else .ok (s.peek a)

/-- MemWrite(addr, 1, v) (R53). -/
def State.memWrite (s : State) (a : Nat) (b : Byte) : Except EngineError State :=
  if 0xFFF < a then .error .memoryOutOfBounds else .ok (s.poke a b)

/-- `n` bytes at consecutive ascending addresses (R54). -/
def State.readBytes (s : State) : Nat → Nat → Except EngineError (List Byte)
  | _, 0 => .ok []
  | a, n + 1 => (s.memRead a).bind fun b => (s.readBytes (a + 1) n).bind fun bs => .ok (b :: bs)

/-- Write bytes at consecutive ascending addresses (R54). -/
def State.writeBytes (s : State) : Nat → List Byte → Except EngineError State
  | _, [] => .ok s
  | a, b :: bs => (s.memWrite a b).bind fun t => t.writeBytes (a + 1) bs

/-! Registers (00_scope R13). -/

/-- `V[r]`. -/
def State.getV (s : State) (r : Reg) : Byte := s.v[r]

/-- `V[r] <- b` (10_state R22). -/
def State.setV (s : State) (r : Reg) (b : Byte) : State := { s with v := s.v.set r b }

/-- `I <- w`. -/
def State.setI (s : State) (w : Word) : State := { s with i := w }

/-- `DT <- b`. -/
def State.setDT (s : State) (b : Byte) : State := { s with dt := b }

/-- `ST <- b`. -/
def State.setST (s : State) (b : Byte) : State := { s with st := b }

/-- Replace the display. -/
def State.setDisp (s : State) (d : Display) : State := { s with disp := d }

/-! The program counter. -/

/-- NextPC(t), the pc update of every instruction (00_scope R15): `t` is an exact integer. -/
def State.nextPC (s : State) (t : Nat) : Except EngineError State :=
  if 0x1000 ≤ t then .error .pcOutOfRange
  else if t % 2 = 1 then .error .pcMisaligned
  else .ok { s with pc := BitVec.ofNat 16 t }

/-- "advance PC by 2" (R15). -/
def State.advance (s : State) : Except EngineError State := s.nextPC (s.pc.toNat + 2)

/-- Skip(cond) (40_control_flow R104). -/
def State.skip (s : State) (c : Bool) : Except EngineError State :=
  s.nextPC (s.pc.toNat + if c then 4 else 2)

/-! The call stack (10_state R29). -/

/-- `Stack[k]`; a slot never written holds 0x0000 (R37). -/
def State.slot (s : State) (k : Nat) : Word := s.stack.getD k 0

/-- Push(a). -/
def State.push (s : State) (a : Word) : Except EngineError State :=
  if (s.cfg.stackCapacity : Int) ≤ s.sp + 1 then .error .stackOverflow
  else .ok { s with sp := s.sp + 1, stack := s.stack.set (s.sp + 1).toNat a }

/-- Pop(): the address on top and the state without it. The slot keeps its contents (R30). -/
def State.pop (s : State) : Except EngineError (Word × State) :=
  if s.sp = -1 then .error .stackUnderflow
  else .ok (s.slot s.sp.toNat, { s with sp := s.sp - 1 })

/-! The inputs of the current Step (70_reset R307): those of the transaction the host issues now, else free values. -/

/-- KEYS. -/
def State.keys (s : State) : BitVec 16 :=
  match s.pending with
  | .step k _ :: _ => k
  | _ => Config.freeKeys s.draws

/-- RND. -/
def State.rnd (s : State) : Byte :=
  match s.pending with
  | .step _ r :: _ => r
  | _ => Config.freeRnd s.draws

/-- The current transaction is done: the next one is first. -/
def State.consume (s : State) : State :=
  match s.pending with
  | [] => { s with draws := s.draws + 1 }
  | _ :: rest => { s with pending := rest }

/-! Errors and outcomes. -/

/-- The error's code (60_exceptions R262, D30). -/
def EngineError.code : EngineError → Nat
  | .romTooLarge => 1
  | .stackOverflow => 2
  | .stackUnderflow => 3
  | .invalidFontIndex => 4
  | .unknownOpcode => 5
  | .pcOutOfRange => 6
  | .pcMisaligned => 7
  | .memoryOutOfBounds => 8
  | .invalidKeyIndex => 9

/-- Whether a Step that raises the error ends the session: all but RomTooLargeError, which no Step raises, and
UnknownOpcodeError, which is recoverable (R262). -/
def EngineError.haltsStep : EngineError → Bool
  | .romTooLarge => false
  | .unknownOpcode => false
  | .stackOverflow => true
  | .stackUnderflow => true
  | .invalidFontIndex => true
  | .pcOutOfRange => true
  | .pcMisaligned => true
  | .memoryOutOfBounds => true
  | .invalidKeyIndex => true

/-- Raising a fatal error (R263): nothing is committed, `status <- Halted(E)`, and pc still addresses the instruction.
There is no handler and no saved register (R271), and no return from it (R272). -/
def State.halt (s : State) (e : EngineError) : State :=
  { s with status := .halted e, report := .fatal e }

/-- The transaction returns an outcome tag. -/
def State.returns (s : State) (t : Tag) : State := { s with report := .outcome t }

/-- End an instruction that began in `s`: its writes and its outcome tag, or its fatal error with every write discarded
(00_scope R14, 70_reset R305). -/
def State.complete (s : State) (tag : Tag) : Except EngineError State → Result
  | .ok t => .next (t.returns tag)
  | .error e => .next (s.halt e)

/-- Fetch(), big-endian from pc and pc + 1 (20_memory R56). -/
def State.fetch (s : State) : Except EngineError Word :=
  (s.memRead s.pc.toNat).bind fun hi =>
    (s.memRead (s.pc.toNat + 1)).bind fun lo => .ok (wordOfBytes hi lo)

/-- Change the next state of an answer, if it is one. -/
def mapNext (f : State → State) : Result → Result
  | .next s => .next (f s)
  | .fault r => .fault r
  | .refused r => .refused r

end Sys2Proof.Machine
end

