-- ==== Sys2Proof/Machine/Operands.lean ====
section
/-! DEFINITION. The operand forms: immediates, effective addresses, register ranges, key and pixel coordinates. -/

namespace Sys2Proof.Machine

/-- `zext_16(nnn)`: an address immediate where I receives it (30_encoding R74). -/
def addrImm (nnn : Addr12) : Word := nnn.setWidth 16

/-- The effective address I + k: an exact sum (42_addressing R186). -/
def State.effAddr (s : State) (k : Nat) : Nat := s.i.toNat + k

/-- All register indices, ascending. -/
def allRegs : List Reg := [0, 1, 2, 3, 4, 5, 6, 7, 8, 9, 10, 11, 12, 13, 14, 15]

/-- The registers V0..Vx, ascending and inclusive (42_addressing R184). -/
def regsUpTo (x : Reg) : List Reg := allRegs.take (x.val + 1)

/-- `V[r] <- b` for each register and byte in turn. -/
def State.setRegs (s : State) : List Reg → List Byte → State
  | r :: rs, b :: bs => (s.setV r b).setRegs rs bs
  | _, _ => s

/-- The three BCD digits of a byte: hundreds, tens, ones, a byte each (42_addressing R183). -/
def bcdDigits (b : Byte) : List Byte :=
  [BitVec.ofNat 8 (b.toNat / 100), BitVec.ofNat 8 (b.toNat / 10 % 10), BitVec.ofNat 8 (b.toNat % 10)]

/-- The key-pressed predicate of one code (44_timer_input R235). -/
def keyDown (keys : BitVec 16) (k : Nat) : Bool := keys.getLsbD k

/-- The first pressed key code, scanned 0 to 15 (R240). -/
def firstPressed (keys : BitVec 16) : Option KeyCode := allRegs.find? fun k => keyDown keys k.val

/-- Column of the pixel for sprite column `col` drawn at `vx` (43_display R211). -/
def pixelX (vx : Byte) (col : Nat) : Fin 64 := ⟨(vx.toNat + col) % 64, Nat.mod_lt _ (by decide)⟩

/-- Row of the pixel for sprite row `r` drawn at `vy` (R211). -/
def pixelY (vy : Byte) (r : Nat) : Fin 32 := ⟨(vy.toNat + r) % 32, Nat.mod_lt _ (by decide)⟩

end Sys2Proof.Machine
end

