-- ==== Sys2Proof/Machine/Flags.lean ====
section
/-! DEFINITION. The flags VF can receive (10_state R23) and the one operation that writes a result and its flag. -/

namespace Sys2Proof.Machine

/-- A flag as the byte VF holds. -/
def flagByte (f : Bool) : Byte := if f then 1 else 0

/-- 8XY4: carry, the sum exceeds 255 (41_alu R146). -/
def carryFlag (vx vy : Byte) : Bool := decide (255 < vx.toNat + vy.toNat)

/-- 8XY5: borrow, Vx < Vy (R147, C1: log 12). -/
def borrowFlag (vx vy : Byte) : Bool := decide (vx.toNat < vy.toNat)

/-- 8XY6: bit 0 of Vx before the shift (R148). -/
def lowBit (vx : Byte) : Bool := vx.getLsbD 0

/-- 8XY7: Vy > Vx strictly (R149). -/
def aboveFlag (vx vy : Byte) : Bool := decide (vx.toNat < vy.toNat)

/-- 8XYE: bit 7 of Vx before the shift (R150). -/
def highBit (vx : Byte) : Bool := vx.getLsbD 7

/-- Write Vx and then VF: with x = 15 the flag stays (10_state R23, D6: log 13). -/
def State.setWithFlag (s : State) (x : Reg) (r : Byte) (f : Bool) : State :=
  (s.setV x r).setV Reg.vf (flagByte f)

end Sys2Proof.Machine
end

