-- ==== Sys2Proof/Machine/Addressing.lean ====
section
/-! DEFINITION. Address register and memory transfer: ANNN, FX1E, FX29, FX33, FX55, FX65 (42_addressing). -/

namespace Sys2Proof.Machine

/-- ANNN (R180). -/
def execLdI (nnn : Addr12) (s : State) : Result := s.complete .normal (s.setI (addrImm nnn)).advance

/-- FX1E (R181): wraps mod 2^16, no flag (D11: log 17). -/
def execAddI (x : Reg) (s : State) : Result :=
  s.complete .normal (s.setI (BitVec.ofNat 16 (s.i.toNat + (s.getV x).toNat))).advance

/-- FX29 (R182): the glyph of digit Vx stands at 5 Vx. -/
def execLdF (x : Reg) (s : State) : Result :=
  s.complete .normal
    (if 0xF < (s.getV x).toNat then .error .invalidFontIndex
     else (s.setI (BitVec.ofNat 16 (5 * (s.getV x).toNat))).advance)

/-- FX33 (R183). -/
def execLdB (x : Reg) (s : State) : Result :=
  s.complete .normal ((s.writeBytes (s.effAddr 0) (bcdDigits (s.getV x))).bind State.advance)

/-- FX55 (R184): V0..Vx inclusive, I unchanged. -/
def execLdMemVx (x : Reg) (s : State) : Result :=
  s.complete .normal ((s.writeBytes (s.effAddr 0) ((regsUpTo x).map s.getV)).bind State.advance)

/-- FX65 (R185): V0..Vx inclusive, I unchanged. -/
def execLdVxMem (x : Reg) (s : State) : Result :=
  s.complete .normal
    ((s.readBytes (s.effAddr 0) (x.val + 1)).bind fun bs => (s.setRegs (regsUpTo x) bs).advance)

end Sys2Proof.Machine
end

