-- ==== Sys2Proof/Machine/Alu.lean ====
section
/-! DEFINITION. Register and ALU instructions: 6XNN, 7XNN, 8XY0 to 8XYE, CXNN (41_alu). -/

namespace Sys2Proof.Machine

/-- 6XNN (R140). -/
def execLdImm (x : Reg) (nn : Byte) (s : State) : Result := s.complete .normal (s.setV x nn).advance

/-- 7XNN (R141): wraps, no flag. -/
def execAddImm (x : Reg) (nn : Byte) (s : State) : Result :=
  s.complete .normal (s.setV x (s.getV x + nn)).advance

/-- 8XY0 (R142). -/
def execLdReg (x y : Reg) (s : State) : Result := s.complete .normal (s.setV x (s.getV y)).advance

/-- 8XY1 (R143). -/
def execOrReg (x y : Reg) (s : State) : Result :=
  s.complete .normal (s.setV x (s.getV x ||| s.getV y)).advance

/-- 8XY2 (R144). -/
def execAndReg (x y : Reg) (s : State) : Result :=
  s.complete .normal (s.setV x (s.getV x &&& s.getV y)).advance

/-- 8XY3 (R145). -/
def execXorReg (x y : Reg) (s : State) : Result :=
  s.complete .normal (s.setV x (s.getV x ^^^ s.getV y)).advance

/-- 8XY4 (R146). -/
def execAddReg (x y : Reg) (s : State) : Result :=
  let vx := s.getV x
  let vy := s.getV y
  s.complete .normal (s.setWithFlag x (vx + vy) (carryFlag vx vy)).advance

/-- 8XY5 (R147): the result saturates at 0 on borrow. -/
def execSubReg (x y : Reg) (s : State) : Result :=
  let vx := s.getV x
  let vy := s.getV y
  s.complete .normal (s.setWithFlag x (if borrowFlag vx vy then 0 else vx - vy) (borrowFlag vx vy)).advance

/-- 8XY6 (R148): Vy is not read. -/
def execShr (x _y : Reg) (s : State) : Result :=
  let vx := s.getV x
  s.complete .normal (s.setWithFlag x (vx >>> 1) (lowBit vx)).advance

/-- 8XY7 (R149): wraps, unlike 8XY5. -/
def execSubnReg (x y : Reg) (s : State) : Result :=
  let vx := s.getV x
  let vy := s.getV y
  s.complete .normal (s.setWithFlag x (vy - vx) (aboveFlag vx vy)).advance

/-- 8XYE (R150): Vy is not read. -/
def execShl (x _y : Reg) (s : State) : Result :=
  let vx := s.getV x
  s.complete .normal (s.setWithFlag x (vx <<< 1) (highBit vx)).advance

/-- CXNN (R151): RND is the byte supplied to this Step. -/
def execRnd (x : Reg) (nn : Byte) (s : State) : Result :=
  s.complete .normal (s.setV x (s.rnd &&& nn)).advance

end Sys2Proof.Machine
end

