-- ==== Sys2Proof/Machine/Control.lean ====
section
/-! DEFINITION. Control flow: 00EE, 0NNN, 1NNN, 2NNN, 3XNN, 4XNN, 5XY0, 9XY0, BNNN (40_control_flow). -/

namespace Sys2Proof.Machine

/-- 00EE (R100): the popped value is already the address after the call. -/
def execRet (s : State) : Result :=
  s.complete .normal (s.pop.bind fun (a, t) => t.nextPC a.toNat)

/-- 0NNN (R101): a no-op, whatever the operand. -/
def execSys (_nnn : Addr12) (s : State) : Result := s.complete .normal s.advance

/-- 1NNN (R102). -/
def execJp (nnn : Addr12) (s : State) : Result := s.complete .normal (s.nextPC nnn.toNat)

/-- 2NNN (R103): the push is checked before the target (R268), and pushes pc + 2 even at 0xFFE (D26: log 24). -/
def execCall (nnn : Addr12) (s : State) : Result :=
  s.complete .normal ((s.push (BitVec.ofNat 16 (s.pc.toNat + 2))).bind fun t => t.nextPC nnn.toNat)

/-- 3XNN (R105). -/
def execSeImm (x : Reg) (nn : Byte) (s : State) : Result := s.complete .normal (s.skip (s.getV x == nn))

/-- 4XNN (R106). -/
def execSneImm (x : Reg) (nn : Byte) (s : State) : Result := s.complete .normal (s.skip (s.getV x != nn))

/-- 5XY0 (R107): the low nibble has no effect. -/
def execSeReg (x y : Reg) (_z : Nibble) (s : State) : Result :=
  s.complete .normal (s.skip (s.getV x == s.getV y))

/-- 9XY0 (R108): the low nibble has no effect. -/
def execSneReg (x y : Reg) (_z : Nibble) (s : State) : Result :=
  s.complete .normal (s.skip (s.getV x != s.getV y))

/-- BNNN (R109): the exact sum NNN + V0, never reduced. -/
def execJpV0 (nnn : Addr12) (s : State) : Result :=
  s.complete .normal (s.nextPC (nnn.toNat + (s.getV 0).toNat))

end Sys2Proof.Machine
end

