-- ==== Sys2Proof/Machine/Sprite.lean ====
section
/-! DEFINITION. The display and its instructions: 00E0, DXYN (43_display). -/

namespace Sys2Proof.Machine

/-- `Disp[x][y]`. -/
def Display.get (d : Display) (x : Fin 64) (y : Fin 32) : Bool := (d[x])[y]

/-- `Disp[x][y] <- b`. -/
def Display.set (d : Display) (x : Fin 64) (y : Fin 32) (b : Bool) : Display :=
  Vector.set d x ((d[x]).set y b)

/-- The pixel at column x and row y, as the host reads it (60_exceptions R280). -/
def State.pixel (s : State) (x : Fin 64) (y : Fin 32) : Bool := Display.get s.disp x y

/-- Plot(px, py, bit) (R212): XOR one pixel; a pixel cleared sets the collision accumulator. -/
def plot (dc : Display × Bool) (px : Fin 64) (py : Fin 32) (bit : Bool) : Display × Bool :=
  if bit && Display.get dc.1 px py then (Display.set dc.1 px py false, true)
  else if bit then (Display.set dc.1 px py true, dc.2)
  else dc

/-- The eight sprite columns, bit 7 first (R213). -/
def spriteCols : List Nat := [0, 1, 2, 3, 4, 5, 6, 7]

/-- Plot one sprite row `r` whose byte is `b`. -/
def drawRow (vx vy : Byte) (r : Nat) (b : Byte) (dc : Display × Bool) : Display × Bool :=
  spriteCols.foldl (fun dc col => plot dc (pixelX vx col) (pixelY vy r) (b.getLsbD (7 - col))) dc

/-- Plot the sprite rows from row `r` on (R213). -/
def drawRows (vx vy : Byte) : Nat → List Byte → Display × Bool → Display × Bool
  | _, [], dc => dc
  | r, b :: bs, dc => drawRows vx vy (r + 1) bs (drawRow vx vy r b dc)

/-- 00E0 (R210). -/
def execCls (s : State) : Result := s.complete .displayDirty (s.setDisp Display.blank).advance

/-- DXYN (R213): all source bytes are read first, at the coordinates Vx and Vy held before VF is written. -/
def execDrw (x y : Reg) (n : Nibble) (s : State) : Result :=
  s.complete .displayDirty
    ((s.readBytes (s.effAddr 0) n.toNat).bind fun rows =>
      let dc := drawRows (s.getV x) (s.getV y) 0 rows (s.disp, false)
      ((s.setDisp dc.1).setV Reg.vf (flagByte dc.2)).advance)

end Sys2Proof.Machine
end

