-- ==== Sys2Proof/Machine/TimerInput.lean ====
section
/-! DEFINITION. Timers and keys: EX9E, EXA1, FX07, FX0A, FX15, FX18 (44_timer_input). -/

namespace Sys2Proof.Machine

/-- Skip on the key whose code Vx holds: InvalidKeyIndexError above 0xF (R230, R231, D10: log 16). -/
def State.skipOnKey (s : State) (x : Reg) (whenDown : Bool) : Except EngineError State :=
  if 0xF < (s.getV x).toNat then .error .invalidKeyIndex
  else s.skip (keyDown s.keys (s.getV x).toNat == whenDown)

/-- EX9E (R230). -/
def execSkp (x : Reg) (s : State) : Result := s.complete .keyQuery (s.skipOnKey x true)

/-- EXA1 (R231). -/
def execSknp (x : Reg) (s : State) : Result := s.complete .keyQuery (s.skipOnKey x false)

/-- FX07 (R232). -/
def execLdVxDT (x : Reg) (s : State) : Result := s.complete .normal (s.setV x s.dt).advance

/-- FX15 (R233). -/
def execLdDTVx (x : Reg) (s : State) : Result := s.complete .normal (s.setDT (s.getV x)).advance

/-- FX18 (R234). -/
def execLdSTVx (x : Reg) (s : State) : Result := s.complete .normal (s.setST (s.getV x)).advance

/-- FX0A (R240): the lowest pressed key, or KeyWaitBlocked with nothing changed. -/
def execLdVxK (x : Reg) (s : State) : Result :=
  match firstPressed s.keys with
  | some k => s.complete .normal (s.setV x (BitVec.ofNat 8 k.val)).advance
  | none => .next (s.returns .keyWaitBlocked)

end Sys2Proof.Machine
end

