-- ==== Sys2Proof/Machine/Transactions.lean ====
section
/-! DEFINITION. The host's transactions: Create, Step, Tick, SkipUnknown, Destroy (00_scope R7). -/

namespace Sys2Proof.Machine

/-- Create(rom) with the parameters `c` (70_reset R300): a ROM of more than 3584 bytes is RomTooLargeError and produces
no state (60_exceptions R267). -/
def State.create (c : Config) (rom : List Byte) : Except EngineError State :=
  if 0x1000 - 0x200 < rom.length then .error .romTooLarge
  else .ok ((State.fresh c).pokeBytes 0x200 rom)

/-- A timer counts down by one unless it is zero (10_state R31). -/
def countDown (t : Byte) : Byte := if t = 0 then 0 else t - 1

/-- Tick() (60_exceptions R275). -/
def State.tick (s : State) : State :=
  { s with dt := countDown s.dt, st := countDown s.st, report := .nothing }

/-- The host may issue SkipUnknown: under the policy skip, next after a Step that returned Unknown (R266). -/
def State.maySkipUnknown (s : State) : Bool :=
  s.cfg.unknownPolicy == .skip && s.report == .outcome .unknown

/-- SkipUnknown() (R266): pc passes the unknown word, or PcOutOfRangeError halts the session. -/
def skipUnknown (s : State) : Result :=
  if s.maySkipUnknown then
    match s.advance with
    | .ok t => .next { t with report := .nothing }
    | .error e => .next (s.halt e)
  else .refused .skipUnknownNotAllowed

/-- Destroy() (70_reset R303): it "releases owned memory; no other side effects". -/
def State.destroy (s : State) : State := { s with destroyed := true, report := .nothing }

/-- Step(KEYS, RND) (70_reset R305): fetch, decode, execute one instruction. An unknown word changes nothing and returns
Unknown (60_exceptions R265). -/
def runStep (s : State) : Result :=
  match s.fetch with
  | .error e => .next (s.halt e)
  | .ok w =>
    match decodeWord w with
    | .ok i => exec i s
    | .error _ => .next (s.returns .unknown)

/-- A transaction that has a transition only when status = Running (60_exceptions R263). -/
def State.whenRunning (s : State) (r : Result) : Result :=
  match s.status with
  | .running => r
  | .halted e => .fault (.sessionHalted e)

/-- One transaction on the whole state: the next one of the host's list, or a Step when there is none. -/
def transact (s : State) : Result :=
  if s.destroyed then .fault .sessionDestroyed
  else
    mapNext State.consume
      (match s.pending with
       | .destroy :: _ => .next s.destroy
       | .tick :: _ => s.whenRunning (.next s.tick)
       | .skipUnknown :: _ => s.whenRunning (skipUnknown s)
       | .step _ _ :: _ => s.whenRunning (runStep s)
       | [] => s.whenRunning (runStep s))

/-- The host's next transaction is a Step. -/
def State.stepIsNext (s : State) : Bool :=
  match s.pending with
  | [] => true
  | .step _ _ :: _ => true
  | .tick :: _ => false
  | .skipUnknown :: _ => false
  | .destroy :: _ => false

/-- Put a word where Fetch reads the next instruction, and let the host issue the Step that runs it, with KEYS = 0 and
RND = 0 unless a Step is already next in its list (log 25). -/
def State.placeWord (s : State) (w : Word) : State :=
  let t := if s.pc.toNat < 0xFFF then s.pokeBytes s.pc.toNat (wordBytes w) else s
  match s.pending with
  | .step _ _ :: _ => t
  | rest => { t with pending := .step 0 0 :: rest }

end Sys2Proof.Machine
end

