-- ==== Sys2Proof/Machine/Step.lean ====
section
/-! DEFINITION. One step of the machine: one transaction of the host. -/

namespace Sys2Proof.Machine

/-- One step is one transaction (00_scope R6, R7). -/
def step (s : State) : Host.Outcome State Fault Refusal := transact s

/-- `s` with the instruction whose bits are `w` (as spec/opcode_table.json numbers them) where the next Step fetches,
and that Step next (log 25). -/
def State.withFetchWord (s : State) (nbits w : Nat) : State := s.placeWord (tableWord nbits w)

end Sys2Proof.Machine
end

