-- ==== Sys2Proof/Safety.lean ====
section
/-! DEFINITION. The terms claims are stated in: a live session, room to advance, the invariant of a session, what an
instruction leaves alone. -/

namespace Sys2Proof.Machine

/-- A session that takes Steps: Running (10_state R34) and not destroyed (70_reset R303). -/
abbrev State.Live (s : State) : Prop := s.status = .running ∧ s.destroyed = false

/-- pc is even and pc + k is inside memory, so NextPC(pc + k) raises nothing (00_scope R15). -/
abbrev State.RoomFor (s : State) (k : Nat) : Prop := s.pc.toNat % 2 = 0 ∧ s.pc.toNat + k < 0x1000

/-- pc is "an even-aligned, in-bounds instruction fetch location" (10_state R26). -/
abbrev State.PcOk (s : State) : Prop := s.pc.toNat % 2 = 0 ∧ s.pc.toNat ≤ 0xFFE

/-- The call stack has STACK_CAPACITY slots and SP is in -1..STACK_CAPACITY-1 (10_state R20, R28). -/
abbrev State.StackOk (s : State) : Prop :=
  s.stack.length = s.cfg.stackCapacity ∧ -1 ≤ s.sp ∧ s.sp + 1 ≤ s.cfg.stackCapacity

/-- Every return address in use is "an even pc plus 2" (40_control_flow R100): even, and at most 0x1000. -/
abbrev State.ReturnsOk (s : State) : Prop :=
  ∀ k < (s.sp + 1).toNat, (s.slot k).toNat % 2 = 0 ∧ (s.slot k).toNat ≤ 0x1000

/-- Only an error that ends a session stands in `status` (60_exceptions R262, R263). -/
abbrev State.StatusOk (s : State) : Prop :=
  match s.status with
  | .running => True
  | .halted e => e.haltsStep = true

/-- The canonical form of the state's memory. -/
abbrev State.MemOk (s : State) : Prop := Memory.wf s.cfg.initialByte s.mem = true

/-- The invariant of a session. -/
structure State.Inv (s : State) : Prop where
  cfg : s.cfg.wf = true
  pc : s.PcOk
  stack : s.StackOk
  returns : s.ReturnsOk
  status : s.StatusOk
  mem : s.MemOk

/-- `t` is `s` but for V, pc, status and the report: every other register, the stack, the timers, the display, every
byte of memory and the parameters are as they were. -/
abbrev State.SameButV (s t : State) : Prop :=
  t = { s with v := t.v, pc := t.pc, status := t.status, report := t.report } ∧ ∀ a, t.peek a = s.peek a

/-- `t` is `s` but for pc, status and the report. -/
abbrev State.SameButPc (s t : State) : Prop :=
  t = { s with pc := t.pc, status := t.status, report := t.report } ∧ ∀ a, t.peek a = s.peek a

/-- `s` with the register file the function says. -/
def State.withV (s : State) (f : Reg → Byte) : State := { s with v := Vector.ofFn f }

/-- `s` at another pc. -/
def State.atPc (s : State) (pc : Nat) : State := { s with pc := BitVec.ofNat 16 pc }

/-- `s` moved on by `k` bytes, with the outcome tag `g`: how an instruction that has made its writes ends. -/
def State.moved (s : State) (k : Nat) (g : Tag) : State := (s.atPc (s.pc.toNat + k)).returns g

/-- Whether the sprite of `n` rows at I, drawn at (vx, vy), has a 1 bit for the pixel (px, py): the pixel lies `c` columns
right of vx mod 64 and `r` rows below vy mod 32, both counted around the edges (43_display R211, R213). -/
def State.spriteBit (s : State) (vx vy : Byte) (n : Nat) (px : Fin 64) (py : Fin 32) : Bool :=
  let c := (px.val + 64 - vx.toNat % 64) % 64
  let r := (py.val + 32 - vy.toNat % 32) % 32
  decide (c < 8) && decide (r < n) && (s.peek (s.effAddr r)).getLsbD (7 - c)

end Sys2Proof.Machine
end

