-- ==== Sys2Proof/Certificates/Slice0/Obligations.lean ====
section
/-! DEFINITION. What is to be proved of the model. Each docstring names the rule or section of spec/ it formalises; a clause
that rests on a decision the spec marks as its own (a row D<n> of 92_eei_decisions) names the row. -/

open Sys2Proof Sys2Proof.Machine

/-! ## Encoding -/

/-- A word of each family, written out from 30_encoding R73 and R75 (patterns marked GK are the spec's own, D3), decodes to
the instruction it stands for. -/
def Obligations.WordsDecodeAsListed : Prop :=
  decodeWord 0x00EE = .ok .ret ∧ decodeWord 0x00E0 = .ok .cls ∧ decodeWord 0x0123 = .ok (.sys 0x123) ∧
  decodeWord 0x1250 = .ok (.jp 0x250) ∧ decodeWord 0x2210 = .ok (.call 0x210) ∧
  decodeWord 0x3342 = .ok (.seImm 3 0x42) ∧ decodeWord 0x912F = .ok (.sneReg 1 2 0xF) ∧
  decodeWord 0x6A3C = .ok (.ldImm 10 0x3C) ∧ decodeWord 0x8124 = .ok (.addReg 1 2) ∧
  decodeWord 0xBF02 = .ok (.jpV0 0xF02) ∧ decodeWord 0xC30F = .ok (.rnd 3 0x0F) ∧
  decodeWord 0xD015 = .ok (.drw 0 1 5) ∧ decodeWord 0xE5A1 = .ok (.sknp 5) ∧
  decodeWord 0xFA15 = .ok (.ldDTVx 10) ∧ decodeWord 0xF165 = .ok (.ldVxMem 1) ∧
  decodeWord 0x8008 = .error (.unknownOpcode 0x8008)

/-- Encoding and decoding agree for every well-formed instruction, with every operand at every value (30_encoding R72 to
R76; patterns and field positions D3, D4). -/
def Obligations.DecodeInvertsEncode : Prop :=
  ∀ (i : Instr) (rest : List Byte), i.wf = true →
    decodeWord (encode i) = .ok i ∧ decode (encodeBytes i ++ rest) = .ok (i, rest)

/-- Every word that decodes is the word of what it decodes to, which is well-formed: no bit of a word is dropped
(30_encoding R72 to R76; D3, D4). -/
def Obligations.EncodeInvertsDecode : Prop :=
  ∀ (w : Word) (i : Instr), decodeWord w = .ok i → encode i = w ∧ i.wf = true

/-- "These words, and only these, are unknown" (30_encoding section 3, R77, which the spec derives from R75 and R76). -/
def Obligations.UnknownWordsExactly : Prop :=
  ∀ w : Word,
    (decodeWord w = .error (.unknownOpcode w) ↔
      (w.toNat / 0x1000 = 0x8 ∧ w.toNat % 16 ∈ [0x8, 0x9, 0xA, 0xB, 0xC, 0xD, 0xF]) ∨
      (w.toNat / 0x1000 = 0xE ∧ w.toNat % 256 ∉ [0x9E, 0xA1]) ∨
      (w.toNat / 0x1000 = 0xF ∧ w.toNat % 256 ∉ [0x07, 0x0A, 0x15, 0x18, 0x1E, 0x29, 0x33, 0x55, 0x65])) ∧
    (∀ e, decodeWord w = .error e → e = .unknownOpcode w)

/-- The decoder is the table of 30_encoding R75 (D3, D4): a word decodes to an instruction whose row it matches, and a word
that matches a row decodes to an instruction of that row, so no word matches two rows. -/
def Obligations.RowsDecideDecoding : Prop :=
  (∀ (w : Word) (i : Instr), decodeWord w = .ok i → i.rowMatches w = true) ∧
  (∀ (w : Word) (i : Instr), i.rowMatches w = true → ∃ j, decodeWord w = .ok j ∧ j.rowMatch = i.rowMatch)

/-! ## The step -/

/-- A Step runs the instruction at pc (70_reset R305): `step` is `exec` of the decoded instruction, and then the host's next
transaction comes first. -/
def Obligations.StepRunsDecodedInstruction : Prop :=
  ∀ (s : State) (i : Instr), s.Live → s.stepIsNext = true → s.pc.toNat ≤ 0xFFE →
    decode [s.peek s.pc.toNat, s.peek (s.pc.toNat + 1)] = .ok (i, []) →
    step s = mapNext State.consume (exec i s)

/-- "An opcode with no matching template yields `UnknownOpcodeError` without mutating any CPU-state field" (60_exceptions
section 2): the outcome is Unknown, pc does not advance, status stays Running, and a repeat returns Unknown again. The
code 5 is D30 (log 30); that the repeat is admitted under the policy halt too is the model's choice (log 36). -/
def Obligations.UnknownWordChangesNothing : Prop :=
  EngineError.unknownOpcode.code = 5 ∧ EngineError.unknownOpcode.haltsStep = false ∧
  ∀ (s : State) (w : Word), s.Live → s.stepIsNext = true → s.fetch = .ok w →
    decodeWord w = .error (.unknownOpcode w) →
    ∃ t, step s = .next t ∧
      t = { s with report := .outcome .unknown, pending := t.pending, draws := t.draws } ∧
      (t.stepIsNext = true → ∃ u, step t = .next u ∧
        u = { s with report := .outcome .unknown, pending := u.pending, draws := u.draws })

/-- Fetch is big-endian: "The byte at pc is bits 15..8 of the opcode and the byte at pc+1 is bits 7..0" (20_memory R56). -/
def Obligations.FetchIsBigEndian : Prop :=
  ∀ s : State, s.pc.toNat ≤ 0xFFE →
    ∃ w : Word, s.fetch = .ok w ∧
      w.toNat = 256 * (s.peek s.pc.toNat).toNat + (s.peek (s.pc.toNat + 1)).toNat

/-- The end of a session: in a Halted state Step, Tick and SkipUnknown have no transition (60_exceptions R263, D13), Destroy
applies in any status and changes nothing else, and after it no transaction applies (70_reset R303). -/
def Obligations.SessionEnds : Prop :=
  (∀ (s : State) (e : EngineError), s.status = .halted e → s.destroyed = false →
    (∀ rest, s.pending ≠ .destroy :: rest) → step s = .fault (.sessionHalted e)) ∧
  (∀ (s : State) (rest : List Transaction), s.destroyed = false → s.pending = .destroy :: rest →
    ∃ t, step s = .next t ∧ t = { s with destroyed := true, report := .nothing, pending := rest } ∧
      step t = .fault .sessionDestroyed)

/-- Tick (60_exceptions R275): each timer that is nonzero counts down by one, by its own test, and nothing else changes; it
applies only when status is Running. -/
def Obligations.TickCountsDown : Prop :=
  ∀ (s : State) (rest : List Transaction), s.destroyed = false → s.pending = .tick :: rest →
    (s.status = .running → ∃ t, step s = .next t ∧
      t = { s with dt := t.dt, st := t.st, pending := rest, report := .nothing } ∧
      (if s.dt.toNat = 0 then t.dt = s.dt else t.dt.toNat = s.dt.toNat - 1) ∧
      (if s.st.toNat = 0 then t.st = s.st else t.st.toNat = s.st.toNat - 1)) ∧
    (s.status ≠ .running → ∀ t, step s ≠ .next t)

/-- Any number of Ticks between two Steps (60_exceptions R276, 70_reset R310, which the spec derives): each timer reads
max(0, v - n) after n Ticks, and nothing else of the CPU State changes. -/
def Obligations.TimersAfterTicks : Prop :=
  ∀ (n : Nat) (s : State) (rest : List Transaction), s.Live → s.pending = List.replicate n .tick ++ rest →
    ∃ t, Host.Core.run Sys2Proof.core n s = .next t ∧
      t = { s with dt := t.dt, st := t.st, pending := rest, report := t.report } ∧
      t.dt.toNat = s.dt.toNat - n ∧ t.st.toNat = s.st.toNat - n

/-- SkipUnknown (60_exceptions section 2, D15): directly after an Unknown outcome, under the policy skip, it moves pc past
the word and changes nothing else, or halts the session when pc would leave memory; otherwise the host may not issue it, and
the model refuses it (log 35, the model's choice). -/
def Obligations.SkipUnknownPassesTheWord : Prop :=
  ∀ (s : State) (rest : List Transaction), s.Live → s.pending = .skipUnknown :: rest →
    (s.cfg.unknownPolicy = .skip → s.report = .outcome .unknown → s.RoomFor 2 →
      step s = .next { s with pc := BitVec.ofNat 16 (s.pc.toNat + 2), report := .nothing, pending := rest }) ∧
    (s.cfg.unknownPolicy = .skip → s.report = .outcome .unknown → 0x1000 ≤ s.pc.toNat + 2 →
      step s = .next { s with status := .halted .pcOutOfRange, report := .fatal .pcOutOfRange, pending := rest }) ∧
    (s.cfg.unknownPolicy = .halt ∨ s.report ≠ .outcome .unknown → step s = .refused .skipUnknownNotAllowed)

/-- The engine waiting in FX0A (44_timer_input R241, R242, which the spec derives in part): through any mixture of Steps with
no key pressed and Ticks, the same FX0A stays at pc and nothing but the two timers changes, which count down by the
number of Ticks. -/
def Obligations.KeyWaitHoldsWhileTimersTick : Prop :=
  ∀ (l : List Transaction) (s : State) (x : Reg) (rest : List Transaction), s.Live → s.pc.toNat ≤ 0xFFE →
    decode [s.peek s.pc.toNat, s.peek (s.pc.toNat + 1)] = .ok (.ldVxK x, []) →
    (∀ t ∈ l, t = .tick ∨ ∃ r, t = .step 0 r) → s.pending = l ++ rest →
    ∃ t, Host.Core.run Sys2Proof.core l.length s = .next t ∧
      t = { s with dt := t.dt, st := t.st, pending := rest, report := t.report } ∧
      t.dt.toNat = s.dt.toNat - l.count .tick ∧ t.st.toNat = s.st.toNat - l.count .tick

/-! ## Reset -/

/-- "Value of every piece of state after a successful `Create(rom)`" (10_state R37), for every FONT and STACK_CAPACITY. -/
def Obligations.CreateGivesTheTabulatedState : Prop :=
  ∀ (c : Config) (rom : List Byte), rom.length ≤ 3584 →
    ∃ t, State.create c rom = .ok t ∧ t.cfg = c ∧
      (∀ (d : Fin 16) (k : Fin 5), t.peek (5 * d.val + k.val) = (c.font[d])[k]) ∧
      (∀ a, 0x50 ≤ a → a < 0x200 → t.peek a = 0) ∧
      (∀ k, k < rom.length → t.peek (0x200 + k) = rom.getD k 0) ∧
      (∀ a, 0x200 + rom.length ≤ a → a < 0x1000 → t.peek a = 0) ∧
      (∀ r, t.getV r = 0) ∧ t.i = 0 ∧ t.pc = 0x200 ∧ t.sp = -1 ∧
      t.stack.length = c.stackCapacity ∧ (∀ k, t.slot k = 0) ∧ t.dt = 0 ∧ t.st = 0 ∧
      (∀ px py, t.pixel px py = false) ∧ t.status = .running

/-- RomTooLargeError (60_exceptions R267): a ROM of more than 3584 bytes gives no state, and one of exactly 3584 bytes fills
0x200..0xFFF. -/
def Obligations.RomTooLargeIsRefused : Prop :=
  ∀ (c : Config) (rom : List Byte),
    (3584 < rom.length → State.create c rom = .error .romTooLarge) ∧
    (rom.length = 3584 → ∃ t, State.create c rom = .ok t ∧
      ∀ a, 0x200 ≤ a → a < 0x1000 → t.peek a = rom.getD (a - 0x200) 0)

/-- The machine's reset is Create of an empty ROM (70_reset section 1, D27) with the parameters of log 1 to 4: the model's
choice of what stands at reset. -/
def Obligations.ResetIsCreateOfEmptyRom : Prop :=
  State.create Config.standard [] = .ok State.reset ∧ State.reset.pc = 0x200 ∧ State.reset.sp = -1 ∧
    State.reset.status = .running ∧ State.reset.peek 0x04B = 0xF0 ∧ State.reset.peek 0x200 = 0

/-! ## Invariants and whole-machine rules -/

/-- Every transaction keeps the invariant of a session, from every state that has it: pc even and in bounds (10_state R26),
SP in range over STACK_CAPACITY slots (R28), return addresses even and at most 0x1000 (40_control_flow R100), only errors
that end a session in `status`, memory in canonical form. Rests on D7, D8, D9, D26. -/
def Obligations.StepKeepsInvariant : Prop :=
  ∀ s t : State, s.Inv → step s = .next t → t.Inv

/-- The invariant holds at reset. -/
def Obligations.ResetHasInvariant : Prop := State.reset.Inv

/-- The invariant holds after Create of any ROM with any parameters (STACK_CAPACITY positive). -/
def Obligations.CreateEstablishesInvariant : Prop :=
  ∀ (c : Config) (rom : List Byte) (t : State), c.wf = true → State.create c rom = .ok t → t.Inv

/-- The parameters never change (00_scope section 4): log 1. -/
def Obligations.StepKeepsParameters : Prop :=
  ∀ s t : State, step s = .next t → t.cfg = s.cfg

/-- A running session never sticks: every instruction answers a next state in every state, and so does every transaction but a
SkipUnknown, which the host may not always issue (60_exceptions sections 1 and 2; D13). -/
def Obligations.LiveSessionAlwaysAnswers : Prop :=
  (∀ (i : Instr) (s : State), ∃ t, exec i s = .next t) ∧
  (∀ s : State, s.Live → (∀ rest, s.pending ≠ .skipUnknown :: rest) → ∃ t, step s = .next t)

/-- A fatal error is precise (60_exceptions section 2, D13): an instruction either leaves the session running, or commits
nothing and halts with an error that ends a session. -/
def Obligations.FatalErrorCommitsNothing : Prop :=
  ∀ (i : Instr) (s t : State), s.status = .running → exec i s = .next t →
    t.status = .running ∨ ∃ e : EngineError, e.haltsStep = true ∧
      t = { s with status := .halted e, report := .fatal e }

/-- Which instruction raises which error (60_exceptions section 2, the "raised by" column; D7 to D10, D30), in a state a
session can be in. -/
def Obligations.ErrorsByInstruction : Prop :=
  ∀ (i : Instr) (s t : State) (e : EngineError), s.Inv → exec i s = .next t → t.report = .fatal e →
    (e = .pcOutOfRange ∧ ∀ n, i ≠ .jp n ∧ i ≠ .call n) ∨
    (e = .stackOverflow ∧ ∃ n, i = .call n) ∨
    (e = .stackUnderflow ∧ i = .ret) ∨
    (e = .invalidFontIndex ∧ ∃ x, i = .ldF x) ∨
    (e = .pcMisaligned ∧ ∃ n, i = .jp n ∨ i = .call n ∨ i = .jpV0 n) ∨
    (e = .memoryOutOfBounds ∧
      ((∃ x y n, i = .drw x y n) ∨ ∃ x, i = .ldB x ∨ i = .ldMemVx x ∨ i = .ldVxMem x)) ∨
    (e = .invalidKeyIndex ∧ ∃ x, i = .skp x ∨ i = .sknp x)

/-- Operand and memory errors, whatever pc is: they are reported before a pc error (60_exceptions section 2, D14; conditions
of 20_memory section 2, D9, and of 44_timer_input section 2, D10). -/
def Obligations.OperandErrorsComeFirst : Prop :=
  ∀ (s : State) (x y : Reg) (nnn : Addr12) (n : Nibble),
    (s.sp = -1 → exec .ret s = .next (s.halt .stackUnderflow)) ∧
    ((s.cfg.stackCapacity : Int) ≤ s.sp + 1 → exec (.call nnn) s = .next (s.halt .stackOverflow)) ∧
    (0xF < (s.getV x).toNat → exec (.ldF x) s = .next (s.halt .invalidFontIndex) ∧
      exec (.skp x) s = .next (s.halt .invalidKeyIndex) ∧ exec (.sknp x) s = .next (s.halt .invalidKeyIndex)) ∧
    (1 ≤ n.toNat → 0xFFF < s.i.toNat + n.toNat - 1 → exec (.drw x y n) s = .next (s.halt .memoryOutOfBounds)) ∧
    (0xFFF < s.i.toNat + 2 → exec (.ldB x) s = .next (s.halt .memoryOutOfBounds)) ∧
    (0xFFF < s.i.toNat + x.val → exec (.ldMemVx x) s = .next (s.halt .memoryOutOfBounds) ∧
      exec (.ldVxMem x) s = .next (s.halt .memoryOutOfBounds))

/-- PcOutOfRangeError (00_scope section 5 and 40_control_flow section 1, D7): an instruction that would advance to 0x1000 or
beyond, and meets no error of its own before, commits nothing and halts. -/
def Obligations.AdvancePastMemoryHalts : Prop :=
  ∀ (s : State) (x y : Reg) (nn : Byte) (nnn : Addr12) (n z : Nibble),
    (0x1000 ≤ s.pc.toNat + 2 →
      ∀ i ∈ [.cls, .sys nnn, .ldImm x nn, .addImm x nn, .ldReg x y, .orReg x y, .andReg x y, .xorReg x y, .addReg x y,
          .subReg x y, .shr x y, .subnReg x y, .shl x y, .ldI nnn, .rnd x nn, .ldVxDT x, .ldDTVx x, .ldSTVx x, .addI x],
        exec i s = .next (s.halt .pcOutOfRange)) ∧
    (0x1000 ≤ s.pc.toNat + 2 →
      ((s.getV x).toNat ≤ 0xF → exec (.ldF x) s = .next (s.halt .pcOutOfRange)) ∧
      (s.keys ≠ 0 → exec (.ldVxK x) s = .next (s.halt .pcOutOfRange)) ∧
      (n.toNat = 0 ∨ s.i.toNat + n.toNat ≤ 0x1000 → exec (.drw x y n) s = .next (s.halt .pcOutOfRange)) ∧
      (s.i.toNat + 2 ≤ 0xFFF → exec (.ldB x) s = .next (s.halt .pcOutOfRange)) ∧
      (s.i.toNat + x.val ≤ 0xFFF → exec (.ldMemVx x) s = .next (s.halt .pcOutOfRange) ∧
        exec (.ldVxMem x) s = .next (s.halt .pcOutOfRange))) ∧
    (0x1000 ≤ s.pc.toNat + (if s.getV x = nn then 4 else 2) → exec (.seImm x nn) s = .next (s.halt .pcOutOfRange)) ∧
    (0x1000 ≤ s.pc.toNat + (if s.getV x = nn then 2 else 4) → exec (.sneImm x nn) s = .next (s.halt .pcOutOfRange)) ∧
    (0x1000 ≤ s.pc.toNat + (if s.getV x = s.getV y then 4 else 2) →
      exec (.seReg x y z) s = .next (s.halt .pcOutOfRange)) ∧
    (0x1000 ≤ s.pc.toNat + (if s.getV x = s.getV y then 2 else 4) →
      exec (.sneReg x y z) s = .next (s.halt .pcOutOfRange)) ∧
    ((s.getV x).toNat ≤ 0xF →
      (0x1000 ≤ s.pc.toNat + (if s.keys.getLsbD (s.getV x).toNat then 4 else 2) →
        exec (.skp x) s = .next (s.halt .pcOutOfRange)) ∧
      (0x1000 ≤ s.pc.toNat + (if s.keys.getLsbD (s.getV x).toNat then 2 else 4) →
        exec (.sknp x) s = .next (s.halt .pcOutOfRange)))

/-- "Push and Pop are the only accesses to the stack. Only 2NNN pushes and only 00EE pops." (10_state R29), with the two
primitives and their fatal errors. -/
def Obligations.OnlyCallAndReturnUseTheStack : Prop :=
  (∀ (s : State) (a : Word), s.push a =
    if (s.cfg.stackCapacity : Int) ≤ s.sp + 1 then .error .stackOverflow
    else .ok { s with sp := s.sp + 1, stack := s.stack.set (s.sp + 1).toNat a }) ∧
  (∀ s : State, s.pop =
    if s.sp = -1 then .error .stackUnderflow else .ok (s.stack.getD s.sp.toNat 0, { s with sp := s.sp - 1 })) ∧
  (∀ (i : Instr) (s t : State), exec i s = .next t →
    (∃ n, i = .call n ∧ (t.sp = s.sp ∧ t.stack = s.stack ∨
      t.sp = s.sp + 1 ∧ t.stack = s.stack.set (s.sp + 1).toNat (BitVec.ofNat 16 (s.pc.toNat + 2)))) ∨
    (i = .ret ∧ t.stack = s.stack ∧ (t.sp = s.sp ∨ t.sp = s.sp - 1)) ∨
    (t.sp = s.sp ∧ t.stack = s.stack))

/-- Who writes what: I by ANNN, FX1E, FX29 (10_state section 3); memory by FX33 and FX55 (section 8); the display by 00E0 and
DXYN (section 7); DT by FX15 and ST by FX18 (section 6). Everything else leaves it alone. -/
def Obligations.WritersOfEachUnit : Prop :=
  ∀ (i : Instr) (s t : State), exec i s = .next t →
    (t.i ≠ s.i → (∃ n, i = .ldI n) ∨ ∃ x, i = .addI x ∨ i = .ldF x) ∧
    ((∃ a, t.peek a ≠ s.peek a) → ∃ x, i = .ldB x ∨ i = .ldMemVx x) ∧
    (t.disp ≠ s.disp → i = .cls ∨ ∃ x y n, i = .drw x y n) ∧
    (t.dt ≠ s.dt → ∃ x, i = .ldDTVx x) ∧
    (t.st ≠ s.st → ∃ x, i = .ldSTVx x)

/-- Which tag each instruction returns (60_exceptions section 1; Normal where the source names none is D28). -/
def Obligations.TagOfEachInstruction : Prop :=
  ∀ (i : Instr) (s t : State) (g : Tag), exec i s = .next t → t.report = .outcome g →
    (g = .displayDirty ∧ (i = .cls ∨ ∃ x y n, i = .drw x y n)) ∨
    (g = .keyQuery ∧ ∃ x, i = .skp x ∨ i = .sknp x) ∨
    (g = .keyWaitBlocked ∧ s.keys = 0 ∧ ∃ x, i = .ldVxK x) ∨
    (g = .normal ∧ i ≠ .cls ∧ (∀ x y n, i ≠ .drw x y n) ∧ (∀ x, i ≠ .skp x ∧ i ≠ .sknp x) ∧
      (s.keys = 0 → ∀ x, i ≠ .ldVxK x))

/-- "Only EX9E, EXA1 and FX0A read KEYS, and only CXNN reads RND. All other Steps ignore both." (70_reset section 2; D16, D17):
two runs of an instruction that differ only in an input it does not read end the same. -/
def Obligations.OnlyKeyAndRandomReadInputs : Prop :=
  ∀ (i : Instr) (s : State) (k k' : BitVec 16) (r r' : Byte) (q : List Transaction),
    let run := fun (k : BitVec 16) (r : Byte) =>
      mapNext State.consume (exec i { s with pending := .step k r :: q })
    ((∀ x nn, i ≠ .rnd x nn) → run k r = run k r') ∧
    ((∀ x, i ≠ .skp x ∧ i ≠ .sknp x ∧ i ≠ .ldVxK x) → run k r = run k' r)

/-! ## Frames: what each shape of instruction leaves unchanged, whether it completes or halts -/

/-- Instructions that write V only (6XNN, 7XNN, 8XY0 to 8XY3, CXNN, FX07, FX0A; 8XY4 to 8XYE, which also write VF; FX65, which
writes V0..Vx): every other register, every byte of memory, I, the stack, the timers and the display stay. -/
def Obligations.FrameOfRegisterInstructions : Prop :=
  ∀ (s t : State) (x y : Reg) (nn : Byte),
    (∀ i ∈ [.ldImm x nn, .addImm x nn, .ldReg x y, .orReg x y, .andReg x y, .xorReg x y, .rnd x nn, .ldVxDT x, .ldVxK x],
      exec i s = .next t → s.SameButV t ∧ ∀ r, r ≠ x → t.getV r = s.getV r) ∧
    (∀ i ∈ [.addReg x y, .subReg x y, .shr x y, .subnReg x y, .shl x y],
      exec i s = .next t → s.SameButV t ∧ ∀ r, r ≠ x → r ≠ 15 → t.getV r = s.getV r) ∧
    (exec (.ldVxMem x) s = .next t → s.SameButV t ∧ ∀ r, x < r → t.getV r = s.getV r)

/-- Jumps, skips and 0NNN write pc only; 2NNN and 00EE write pc and the stack, ANNN, FX1E and FX29 pc and I, FX15 and FX18 pc and
one timer: every general register and every byte of memory stays, and all the rest. -/
def Obligations.FrameOfControlAndTimerInstructions : Prop :=
  ∀ (s t : State) (x y : Reg) (nn : Byte) (nnn : Addr12) (z : Nibble),
    (∀ i ∈ [.sys nnn, .jp nnn, .jpV0 nnn, .seImm x nn, .sneImm x nn, .seReg x y z, .sneReg x y z, .skp x, .sknp x],
      exec i s = .next t → s.SameButPc t) ∧
    (∀ i ∈ [.ret, .call nnn], exec i s = .next t →
      t = { s with pc := t.pc, sp := t.sp, stack := t.stack, status := t.status, report := t.report } ∧
      ∀ a, t.peek a = s.peek a) ∧
    (∀ i ∈ [.ldI nnn, .addI x, .ldF x], exec i s = .next t →
      t = { s with pc := t.pc, i := t.i, status := t.status, report := t.report } ∧ ∀ a, t.peek a = s.peek a) ∧
    (exec (.ldDTVx x) s = .next t →
      t = { s with pc := t.pc, dt := t.dt, status := t.status, report := t.report } ∧ ∀ a, t.peek a = s.peek a) ∧
    (exec (.ldSTVx x) s = .next t →
      t = { s with pc := t.pc, st := t.st, status := t.status, report := t.report } ∧ ∀ a, t.peek a = s.peek a)

/-- FX33 stores to the three bytes at I and FX55 to the x + 1 bytes at I, the address the meaning uses (`effAddr 0`): every byte
outside them stays, and V, I, the stack, the timers and the display stay. -/
def Obligations.FrameOfStores : Prop :=
  ∀ (s t : State) (x : Reg),
    (exec (.ldB x) s = .next t →
      t = { s with mem := t.mem, pc := t.pc, status := t.status, report := t.report } ∧
      ∀ a, (a < s.effAddr 0 ∨ s.effAddr 0 + 3 ≤ a) → t.peek a = s.peek a) ∧
    (exec (.ldMemVx x) s = .next t →
      t = { s with mem := t.mem, pc := t.pc, status := t.status, report := t.report } ∧
      ∀ a, (a < s.effAddr 0 ∨ s.effAddr 0 + (x.val + 1) ≤ a) → t.peek a = s.peek a)

/-- 00E0 writes the display and pc; DXYN the display, VF and pc: every other register and every byte of memory stays. -/
def Obligations.FrameOfDisplayInstructions : Prop :=
  ∀ (s t : State) (x y : Reg) (n : Nibble),
    (exec .cls s = .next t →
      t = { s with disp := t.disp, pc := t.pc, status := t.status, report := t.report } ∧
      ∀ a, t.peek a = s.peek a) ∧
    (exec (.drw x y n) s = .next t →
      t = { s with disp := t.disp, v := t.v, pc := t.pc, status := t.status, report := t.report } ∧
      (∀ r, r ≠ 15 → t.getV r = s.getV r) ∧ ∀ a, t.peek a = s.peek a)

/-! ## Control flow -/

/-- 1NNN and BNNN (40_control_flow section 2; D7, D8): the target is exact; an odd one halts as misaligned, one at or above
0x1000 as out of range, odd or not. -/
def Obligations.JumpTargets : Prop :=
  ∀ (s : State) (nnn : Addr12),
    exec (.jp nnn) s =
      (if nnn.toNat % 2 = 0 then .next ((s.atPc nnn.toNat).returns .normal) else .next (s.halt .pcMisaligned)) ∧
    exec (.jpV0 nnn) s =
      (let a := nnn.toNat + (s.getV 0).toNat
       if 0x1000 ≤ a then .next (s.halt .pcOutOfRange)
       else if a % 2 = 0 then .next ((s.atPc a).returns .normal)
       else .next (s.halt .pcMisaligned))

/-- 0NNN "is a guaranteed no-op" (40_control_flow R101): pc + 2 and nothing else, whatever nnn; at pc = 0xFFE it halts. -/
def Obligations.SysIsNoOp : Prop :=
  ∀ (s : State) (nnn : Addr12),
    (s.RoomFor 2 → exec (.sys nnn) s = .next (s.moved 2 .normal)) ∧
    (s.pc = 0xFFE → exec (.sys nnn) s = .next (s.halt .pcOutOfRange))

/-- 2NNN with a free slot (40_control_flow section 2; D8, D26): the return address pc + 2 is pushed, 0x1000 included, and pc is
nnn; an odd nnn pushes nothing and halts. -/
def Obligations.CallPushesReturnAddress : Prop :=
  ∀ (s : State) (nnn : Addr12), s.StackOk → s.PcOk → s.sp + 1 < s.cfg.stackCapacity →
    (nnn.toNat % 2 = 0 → ∃ t, exec (.call nnn) s = .next t ∧
      t = { s with pc := BitVec.ofNat 16 nnn.toNat, sp := s.sp + 1, stack := t.stack, report := .outcome .normal } ∧
      (t.slot (s.sp + 1).toNat).toNat = s.pc.toNat + 2 ∧
      ∀ k, k ≠ (s.sp + 1).toNat → t.slot k = s.slot k) ∧
    (nnn.toNat % 2 = 1 → exec (.call nnn) s = .next (s.halt .pcMisaligned))

/-- 00EE (40_control_flow section 2, R100, whose bound on return addresses the spec derives): pc is the address on top and SP
goes down; the slot keeps its contents; StackUnderflowError on an empty stack, PcOutOfRangeError when the address is
0x1000. -/
def Obligations.ReturnPopsTheTop : Prop :=
  ∀ s : State, s.Inv →
    (s.sp = -1 → exec .ret s = .next (s.halt .stackUnderflow)) ∧
    (s.sp ≠ -1 → (s.slot s.sp.toNat).toNat < 0x1000 →
      exec .ret s = .next { s with pc := s.slot s.sp.toNat, sp := s.sp - 1, report := .outcome .normal }) ∧
    (s.sp ≠ -1 → s.slot s.sp.toNat = 0x1000 → exec .ret s = .next (s.halt .pcOutOfRange))

/-- Subroutine linkage (40_control_flow R111): a call and the return that finds the stack as the call left it restore pc to the
instruction after the call and leave the depth unchanged; no V register, I or timer is saved or restored by either; the
depth is bounded by STACK_CAPACITY. -/
def Obligations.CallThenReturnResumes : Prop :=
  ∀ (s : State) (nnn : Addr12), s.StackOk → s.RoomFor 2 → nnn.toNat % 2 = 0 →
    ((s.cfg.stackCapacity : Int) ≤ s.sp + 1 → exec (.call nnn) s = .next (s.halt .stackOverflow)) ∧
    (s.sp + 1 < s.cfg.stackCapacity → ∃ t, exec (.call nnn) s = .next t ∧
      t.v = s.v ∧ t.i = s.i ∧ t.dt = s.dt ∧ t.st = s.st ∧
      ∀ u : State, u.sp = t.sp → u.stack = t.stack →
        ∃ w, exec .ret u = .next w ∧ w.pc.toNat = s.pc.toNat + 2 ∧ w.sp = s.sp ∧
          w.v = u.v ∧ w.i = u.i ∧ w.dt = u.dt ∧ w.st = u.st)

/-- 3XNN and 4XNN (40_control_flow section 2): "advance PC by 4 if condition true else 2"; 4XNN is the exact complement;
PcOutOfRangeError at the ends of memory (D7). -/
def Obligations.SkipOnImmediate : Prop :=
  ∀ (s : State) (x : Reg) (nn : Byte),
    (s.RoomFor (if (s.getV x).toNat = nn.toNat then 4 else 2) →
      exec (.seImm x nn) s = .next (s.moved (if (s.getV x).toNat = nn.toNat then 4 else 2) .normal)) ∧
    (0x1000 ≤ s.pc.toNat + (if (s.getV x).toNat = nn.toNat then 4 else 2) →
      exec (.seImm x nn) s = .next (s.halt .pcOutOfRange)) ∧
    (s.RoomFor (if (s.getV x).toNat = nn.toNat then 2 else 4) →
      exec (.sneImm x nn) s = .next (s.moved (if (s.getV x).toNat = nn.toNat then 2 else 4) .normal)) ∧
    (0x1000 ≤ s.pc.toNat + (if (s.getV x).toNat = nn.toNat then 2 else 4) →
      exec (.sneImm x nn) s = .next (s.halt .pcOutOfRange))

/-- 5XYn and 9XYn (40_control_flow section 2), the same for every low nibble n (D4); with x = y the first always skips and the
second never does. -/
def Obligations.SkipOnRegisters : Prop :=
  ∀ (s : State) (x y : Reg) (z : Nibble),
    (s.RoomFor (if (s.getV x).toNat = (s.getV y).toNat then 4 else 2) →
      exec (.seReg x y z) s = .next (s.moved (if (s.getV x).toNat = (s.getV y).toNat then 4 else 2) .normal)) ∧
    (s.RoomFor (if (s.getV x).toNat = (s.getV y).toNat then 2 else 4) →
      exec (.sneReg x y z) s = .next (s.moved (if (s.getV x).toNat = (s.getV y).toNat then 2 else 4) .normal)) ∧
    (s.RoomFor 4 → exec (.seReg x x z) s = .next (s.moved 4 .normal)) ∧
    (s.RoomFor 2 → exec (.sneReg x x z) s = .next (s.moved 2 .normal))

/-! ## Registers and ALU -/

/-- 6XNN and 7XNN (41_alu section 2): Vx is nn, or (Vx + nn) mod 256, with no flag: VF changes only as the destination; at
pc = 0xFFE they halt (D7). -/
def Obligations.LoadAndAddImmediate : Prop :=
  ∀ (s : State) (x : Reg) (nn : Byte),
    (s.RoomFor 2 →
      exec (.ldImm x nn) s = .next ((s.withV fun r => if r = x then nn else s.getV r).moved 2 .normal) ∧
      exec (.addImm x nn) s = .next ((s.withV fun r =>
        if r = x then BitVec.ofNat 8 (((s.getV x).toNat + nn.toNat) % 256) else s.getV r).moved 2 .normal)) ∧
    (s.pc = 0xFFE → exec (.ldImm x nn) s = .next (s.halt .pcOutOfRange) ∧
      exec (.addImm x nn) s = .next (s.halt .pcOutOfRange))

/-- 8XY0 to 8XY3 (41_alu section 3): move, OR, AND, XOR, bit by bit, and no flag; at pc = 0xFFE they halt (D7). -/
def Obligations.MoveAndLogic : Prop :=
  ∀ (s : State) (x y : Reg),
    (s.RoomFor 2 →
      exec (.ldReg x y) s = .next ((s.withV fun r => if r = x then s.getV y else s.getV r).moved 2 .normal) ∧
      exec (.orReg x y) s =
        .next ((s.withV fun r => if r = x then s.getV x ||| s.getV y else s.getV r).moved 2 .normal) ∧
      exec (.andReg x y) s =
        .next ((s.withV fun r => if r = x then s.getV x &&& s.getV y else s.getV r).moved 2 .normal) ∧
      exec (.xorReg x y) s =
        .next ((s.withV fun r => if r = x then s.getV x ^^^ s.getV y else s.getV r).moved 2 .normal)) ∧
    (s.pc = 0xFFE → ∀ i ∈ [.ldReg x y, .orReg x y, .andReg x y, .xorReg x y],
      exec i s = .next (s.halt .pcOutOfRange))

/-- 8XY4 (41_alu section 4): the sum mod 256, VF is 1 exactly when it exceeds 255; with x = 15 the flag stays (D6). -/
def Obligations.AddSetsCarry : Prop :=
  ∀ (s : State) (x y : Reg), s.RoomFor 2 →
    let sum := (s.getV x).toNat + (s.getV y).toNat
    exec (.addReg x y) s = .next ((s.withV fun r =>
      if r = 15 then (if 255 < sum then 1 else 0)
      else if r = x then BitVec.ofNat 8 (sum % 256) else s.getV r).moved 2 .normal)

/-- 8XY5 (41_alu section 4): on borrow the result is 0 and VF is 1, else Vx - Vy and 0 (the polarity is C1, D5; the flag is last,
D6). -/
def Obligations.SubtractSaturates : Prop :=
  ∀ (s : State) (x y : Reg), s.RoomFor 2 →
    let vx := (s.getV x).toNat
    let vy := (s.getV y).toNat
    exec (.subReg x y) s = .next ((s.withV fun r =>
      if r = 15 then (if vx < vy then 1 else 0)
      else if r = x then (if vx < vy then 0 else BitVec.ofNat 8 (vx - vy)) else s.getV r).moved 2 .normal)

/-- 8XY6 and 8XYE (41_alu section 4): Vx halved or doubled mod 256, VF the bit shifted out, whatever y is; the flag is last
(C4, D6). -/
def Obligations.ShiftsMoveOneBit : Prop :=
  ∀ (s : State) (x y : Reg), s.RoomFor 2 →
    let vx := (s.getV x).toNat
    exec (.shr x y) s = .next ((s.withV fun r =>
      if r = 15 then BitVec.ofNat 8 (vx % 2)
      else if r = x then BitVec.ofNat 8 (vx / 2) else s.getV r).moved 2 .normal) ∧
    exec (.shl x y) s = .next ((s.withV fun r =>
      if r = 15 then BitVec.ofNat 8 (vx / 128)
      else if r = x then BitVec.ofNat 8 (2 * vx % 256) else s.getV r).moved 2 .normal)

/-- 8XY7 (41_alu section 4): Vy - Vx mod 256, VF is 1 exactly when Vy > Vx; the flag is last (D6). -/
def Obligations.ReverseSubtractWraps : Prop :=
  ∀ (s : State) (x y : Reg), s.RoomFor 2 →
    let vx := (s.getV x).toNat
    let vy := (s.getV y).toNat
    exec (.subnReg x y) s = .next ((s.withV fun r =>
      if r = 15 then (if vx < vy then 1 else 0)
      else if r = x then BitVec.ofNat 8 ((256 + vy - vx) % 256) else s.getV r).moved 2 .normal)

/-- CXNN (41_alu section 5; D17, D33): Vx is RND AND nn, where RND is the byte of this Step, for every byte; with nn = 0 it is
0. -/
def Obligations.RandomIsMasked : Prop :=
  ∀ (s : State) (x : Reg) (nn r : Byte) (keys : BitVec 16) (q : List Transaction), s.RoomFor 2 →
    s.pending = .step keys r :: q →
    exec (.rnd x nn) s = .next ((s.withV fun j => if j = x then r &&& nn else s.getV j).moved 2 .normal) ∧
    exec (.rnd x 0) s = .next ((s.withV fun j => if j = x then 0 else s.getV j).moved 2 .normal)

/-! ## Address register and memory -/

/-- ANNN and FX29 (42_addressing section 2): I is nnn; I is 5 Vx for a digit, and a Vx above 0xF is InvalidFontIndexError;
at pc = 0xFFE they halt (D7). -/
def Obligations.LoadsOfI : Prop :=
  ∀ (s : State) (x : Reg) (nnn : Addr12),
    (s.RoomFor 2 → ∃ t, exec (.ldI nnn) s = .next t ∧ t.i.toNat = nnn.toNat ∧
      t = { s with i := t.i, pc := BitVec.ofNat 16 (s.pc.toNat + 2), report := .outcome .normal }) ∧
    (s.RoomFor 2 → (s.getV x).toNat ≤ 0xF → ∃ t, exec (.ldF x) s = .next t ∧ t.i.toNat = 5 * (s.getV x).toNat ∧
      t = { s with i := t.i, pc := BitVec.ofNat 16 (s.pc.toNat + 2), report := .outcome .normal }) ∧
    (0xF < (s.getV x).toNat → exec (.ldF x) s = .next (s.halt .invalidFontIndex)) ∧
    (s.pc = 0xFFE → exec (.ldI nnn) s = .next (s.halt .pcOutOfRange) ∧
      ((s.getV x).toNat ≤ 0xF → exec (.ldF x) s = .next (s.halt .pcOutOfRange)))

/-- FX1E (42_addressing section 2): I + Vx mod 2^16 (the wrap is D11), no flag and no error above 0xFFF. -/
def Obligations.AddToIWraps : Prop :=
  ∀ (s : State) (x : Reg), s.RoomFor 2 →
    ∃ t, exec (.addI x) s = .next t ∧ t.i.toNat = (s.i.toNat + (s.getV x).toNat) % 65536 ∧
      t = { s with i := t.i, pc := BitVec.ofNat 16 (s.pc.toNat + 2), report := .outcome .normal }

/-- FX33 (42_addressing section 2; bounds D9): the hundreds, tens and ones of Vx at I, I + 1, I + 2, a digit a byte; every other
byte and all other state stay. -/
def Obligations.BcdStoresThreeDigits : Prop :=
  ∀ (s : State) (x : Reg), s.RoomFor 2 → s.MemOk → s.i.toNat + 2 ≤ 0xFFF →
    ∃ t, exec (.ldB x) s = .next t ∧
      t = { s with mem := t.mem, pc := BitVec.ofNat 16 (s.pc.toNat + 2), report := .outcome .normal } ∧
      (t.peek s.i.toNat).toNat = (s.getV x).toNat / 100 ∧
      (t.peek (s.i.toNat + 1)).toNat = (s.getV x).toNat / 10 % 10 ∧
      (t.peek (s.i.toNat + 2)).toNat = (s.getV x).toNat % 10 ∧
      (∀ a, (a < s.effAddr 0 ∨ s.effAddr 0 + 3 ≤ a) → t.peek a = s.peek a) ∧ t.MemOk

/-- FX55 (42_addressing section 2; bounds D9): V0..Vx, inclusive, at I, I + 1, ...; I and all other state stay. -/
def Obligations.StoreRegisters : Prop :=
  ∀ (s : State) (x : Reg), s.RoomFor 2 → s.MemOk → s.i.toNat + x.val ≤ 0xFFF →
    ∃ t, exec (.ldMemVx x) s = .next t ∧
      t = { s with mem := t.mem, pc := BitVec.ofNat 16 (s.pc.toNat + 2), report := .outcome .normal } ∧
      (∀ r, r ≤ x → t.peek (s.i.toNat + r.val) = s.getV r) ∧
      (∀ a, (a < s.effAddr 0 ∨ s.effAddr 0 + (x.val + 1) ≤ a) → t.peek a = s.peek a) ∧ t.MemOk

/-- FX65 (42_addressing section 2; bounds D9): V0..Vx, inclusive, from I, I + 1, ..., VF like any other; I stays. -/
def Obligations.LoadRegisters : Prop :=
  ∀ (s : State) (x : Reg), s.RoomFor 2 → s.i.toNat + x.val ≤ 0xFFF →
    exec (.ldVxMem x) s = .next ((s.withV fun r =>
      if r ≤ x then s.peek (s.i.toNat + r.val) else s.getV r).moved 2 .normal)

/-- "storing `V0..Vx` to memory at `I` then loading `V0..Vx` back from the same address reproduces the original register values
exactly, and `I` is unchanged by either operation" (42_addressing section 2, R185, which the spec derives; bounds D9),
whatever the registers hold in between. -/
def Obligations.StoreThenLoadRestores : Prop :=
  ∀ (s : State) (x : Reg) (f : Reg → Byte), s.RoomFor 4 → s.MemOk → s.i.toNat + x.val ≤ 0xFFF →
    ∃ t u, exec (.ldMemVx x) s = .next t ∧ exec (.ldVxMem x) (t.withV f) = .next u ∧
      (∀ r, r ≤ x → u.getV r = s.getV r) ∧ t.i = s.i ∧ u.i = s.i

/-! ## Display -/

/-- 00E0 (43_display R210): all pixels off, pc + 2, DisplayDirty even when the display was clear, VF and all else unchanged; at
pc = 0xFFE it halts. -/
def Obligations.ClearTurnsEveryPixelOff : Prop :=
  ∀ s : State,
    (s.RoomFor 2 → ∃ t, exec .cls s = .next t ∧ (∀ px py, t.pixel px py = false) ∧
      t = { s with disp := t.disp, pc := BitVec.ofNat 16 (s.pc.toNat + 2), report := .outcome .displayDirty }) ∧
    (s.pc = 0xFFE → exec .cls s = .next (s.halt .pcOutOfRange))

/-- Plot (43_display R212): a 1 bit flips its pixel and marks a collision when it clears it; a 0 bit changes nothing; no other
pixel changes. -/
def Obligations.PlotFlipsOnePixel : Prop :=
  ∀ (d : Display) (c bit : Bool) (px : Fin 64) (py : Fin 32),
    let p := plot (d, c) px py bit
    (bit = true → Display.get d px py = true → Display.get p.1 px py = false ∧ p.2 = true) ∧
    (bit = true → Display.get d px py = false → Display.get p.1 px py = true ∧ p.2 = c) ∧
    (bit = false → p = (d, c)) ∧
    (∀ qx qy, (qx ≠ px ∨ qy ≠ py) → Display.get p.1 qx qy = Display.get d qx qy)

/-- DXYN (43_display section 2; bounds D9, n = 0 D12, coordinates before VF D6): every pixel is XORed with the sprite's bit for
it, wrapped around both edges; VF is 1 exactly when a pixel that was on is cleared, else 0; I, memory and every other
register stay; DisplayDirty. -/
def Obligations.DrawXorsTheSprite : Prop :=
  ∀ (s : State) (x y : Reg) (n : Nibble), s.RoomFor 2 → (n.toNat = 0 ∨ s.i.toNat + n.toNat ≤ 0x1000) →
    ∃ t, exec (.drw x y n) s = .next t ∧
      t = { s with disp := t.disp, v := t.v, pc := BitVec.ofNat 16 (s.pc.toNat + 2), report := .outcome .displayDirty } ∧
      (∀ px py, t.pixel px py = (s.pixel px py ^^ s.spriteBit (s.getV x) (s.getV y) n.toNat px py)) ∧
      (∀ r, r ≠ 15 → t.getV r = s.getV r) ∧
      ((∃ px py, s.pixel px py = true ∧ s.spriteBit (s.getV x) (s.getV y) n.toNat px py = true) → t.getV 15 = 1) ∧
      ((∀ px py, s.pixel px py = false ∨ s.spriteBit (s.getV x) (s.getV y) n.toNat px py = false) → t.getV 15 = 0)

/-- Properties of the blitter (43_display section 2, R214, which the spec derives; C8): two draws of the same bytes at the same
coordinates leave the display as it was; a draw right after 00E0 sets exactly the sprite's 1 bits and gives VF = 0. -/
def Obligations.DrawTwiceAndDrawOnClear : Prop :=
  ∀ (s : State) (x y : Reg) (n : Nibble), s.RoomFor 4 → (n.toNat = 0 ∨ s.i.toNat + n.toNat ≤ 0x1000) →
    (∃ t u, exec (.drw x y n) s = .next t ∧ exec (.drw x y n) (t.withV s.getV) = .next u ∧ u.disp = s.disp) ∧
    (∃ c t, exec .cls s = .next c ∧ exec (.drw x y n) c = .next t ∧ t.getV 15 = 0 ∧
      ∀ px py, t.pixel px py = s.spriteBit (s.getV x) (s.getV y) n.toNat px py)

/-! ## Timers and keys -/

/-- FX07, FX15, FX18 (44_timer_input R232 to R234): Vx is DT, DT is Vx, ST is Vx, and nothing else but pc; at pc = 0xFFE they
halt. -/
def Obligations.TimerMoves : Prop :=
  ∀ (s : State) (x : Reg),
    (s.RoomFor 2 →
      exec (.ldVxDT x) s = .next ((s.withV fun r => if r = x then s.dt else s.getV r).moved 2 .normal) ∧
      exec (.ldDTVx x) s =
        .next { s with dt := s.getV x, pc := BitVec.ofNat 16 (s.pc.toNat + 2), report := .outcome .normal } ∧
      exec (.ldSTVx x) s =
        .next { s with st := s.getV x, pc := BitVec.ofNat 16 (s.pc.toNat + 2), report := .outcome .normal }) ∧
    (s.pc = 0xFFE → exec (.ldVxDT x) s = .next (s.halt .pcOutOfRange) ∧
      exec (.ldDTVx x) s = .next (s.halt .pcOutOfRange) ∧ exec (.ldSTVx x) s = .next (s.halt .pcOutOfRange))

/-- EX9E and EXA1 (44_timer_input section 2; key range D10): with a code in Vx, skip when the key is down, or when it is not, in
the KEYS of this Step; the tag is KeyQuery either way. -/
def Obligations.SkipOnKey : Prop :=
  ∀ (s : State) (x : Reg) (keys : BitVec 16) (r : Byte) (q : List Transaction), s.pending = .step keys r :: q →
    (s.getV x).toNat ≤ 0xF →
    (s.RoomFor (if keys.getLsbD (s.getV x).toNat then 4 else 2) →
      exec (.skp x) s = .next (s.moved (if keys.getLsbD (s.getV x).toNat then 4 else 2) .keyQuery)) ∧
    (s.RoomFor (if keys.getLsbD (s.getV x).toNat then 2 else 4) →
      exec (.sknp x) s = .next (s.moved (if keys.getLsbD (s.getV x).toNat then 2 else 4) .keyQuery))

/-- FX0A (44_timer_input section 4; a key already held counts, D32): with no key it returns KeyWaitBlocked and changes nothing;
with a key the lowest pressed code goes to Vx and pc advances. -/
def Obligations.KeyWaitTakesLowestKey : Prop :=
  ∀ (s : State) (x : Reg) (keys : BitVec 16) (r : Byte) (q : List Transaction), s.pending = .step keys r :: q →
    (keys = 0 → exec (.ldVxK x) s = .next { s with report := .outcome .keyWaitBlocked }) ∧
    (∀ k : KeyCode, s.RoomFor 2 → keys.getLsbD k.val = true → (∀ j : KeyCode, j < k → keys.getLsbD j.val = false) →
      exec (.ldVxK x) s =
        .next ((s.withV fun j => if j = x then BitVec.ofNat 8 k.val else s.getV j).moved 2 .normal))
end

