-- ==== Sys2Proof/Laws/Decode.lean ====
section
/-! SUPPORT. The fields of an encoded word, one lemma per format and field, and the words in memory order. -/

namespace Sys2Proof

/-! Format NNN. -/

@[simp] theorem field0_encNNN (op : Nibble) (nnn : Addr12) : field0 (encNNN op nnn) = op :=
  BitVec.extractLsb'_append_eq_left

@[simp] theorem fieldNNN_encNNN (op : Nibble) (nnn : Addr12) : fieldNNN (encNNN op nnn) = nnn :=
  BitVec.extractLsb'_append_eq_right

/-! Format XNN. -/

@[simp] theorem field0_encXNN (op : Nibble) (x : Reg) (nn : Byte) : field0 (encXNN op x nn) = op :=
  BitVec.extractLsb'_append_eq_left

@[simp] theorem fieldNN_encXNN (op : Nibble) (x : Reg) (nn : Byte) : fieldNN (encXNN op x nn) = nn := by
  rw [fieldNN, encXNN, BitVec.extractLsb'_append_eq_of_add_le (by decide)]
  exact BitVec.extractLsb'_append_eq_right

@[simp] theorem fieldX_encXNN (op : Nibble) (x : Reg) (nn : Byte) : fieldX (encXNN op x nn) = x := by
  have h : field1 (encXNN op x nn) = regNibble x := by
    rw [field1, encXNN, BitVec.extractLsb'_append_eq_of_add_le (by decide)]
    exact BitVec.extractLsb'_append_eq_left
  rw [fieldX, h]
  rfl

/-! Formats XY and XYN. -/

@[simp] theorem field0_encXYN (op : Nibble) (x y : Reg) (n : Nibble) : field0 (encXYN op x y n) = op :=
  BitVec.extractLsb'_append_eq_left

@[simp] theorem field3_encXYN (op : Nibble) (x y : Reg) (n : Nibble) : field3 (encXYN op x y n) = n := by
  rw [field3, encXYN, BitVec.extractLsb'_append_eq_of_add_le (by decide),
    BitVec.extractLsb'_append_eq_of_add_le (by decide)]
  exact BitVec.extractLsb'_append_eq_right

@[simp] theorem fieldX_encXYN (op : Nibble) (x y : Reg) (n : Nibble) : fieldX (encXYN op x y n) = x := by
  have h : field1 (encXYN op x y n) = regNibble x := by
    rw [field1, encXYN, BitVec.extractLsb'_append_eq_of_add_le (by decide)]
    exact BitVec.extractLsb'_append_eq_left
  rw [fieldX, h]
  rfl

@[simp] theorem fieldY_encXYN (op : Nibble) (x y : Reg) (n : Nibble) : fieldY (encXYN op x y n) = y := by
  have h : field2 (encXYN op x y n) = regNibble y := by
    rw [field2, encXYN, BitVec.extractLsb'_append_eq_of_add_le (by decide),
      BitVec.extractLsb'_append_eq_of_add_le (by decide)]
    exact BitVec.extractLsb'_append_eq_left
  rw [fieldY, h]
  rfl

/-! A word is the encoding of its fields, in each format. -/

theorem encNNN_fields (w : Word) : encNNN (field0 w) (fieldNNN w) = w := by
  rw [encNNN, field0, fieldNNN]
  exact (BitVec.extractLsb'_append_extractLsb'_eq_extractLsb' (x := w) (start₁ := 0) (len₁ := 12) (start₂ := 12)
    (len₂ := 4) rfl).trans (by simp)

theorem encXNN_fields (w : Word) : encXNN (field0 w) (fieldX w) (fieldNN w) = w := by
  have h : (regNibble (fieldX w) ++ fieldNN w : BitVec 12) = fieldNNN w :=
    BitVec.extractLsb'_append_extractLsb'_eq_extractLsb' (x := w) (start₁ := 0) (len₁ := 8) (start₂ := 8) (len₂ := 4) rfl
  rw [encXNN, h]
  exact encNNN_fields w

theorem encXYN_fields (w : Word) : encXYN (field0 w) (fieldX w) (fieldY w) (field3 w) = w := by
  have h : (regNibble (fieldY w) ++ field3 w : BitVec 8) = fieldNN w :=
    BitVec.extractLsb'_append_extractLsb'_eq_extractLsb' (x := w) (start₁ := 0) (len₁ := 4) (start₂ := 4) (len₂ := 4) rfl
  rw [encXYN, h]
  exact encXNN_fields w

/-! The fixed bits that the masks of 30_encoding R75 select. -/

theorem encNNN_and_F000 (op : Nibble) (nnn : Addr12) : encNNN op nnn &&& 0xF000 = op ++ 0#12 := by
  rw [encNNN, show (0xF000 : Word) = BitVec.allOnes 4 ++ 0#12 from rfl, BitVec.and_append]
  simp only [BitVec.and_allOnes, BitVec.and_zero]

theorem encXNN_and_F000 (op : Nibble) (x : Reg) (nn : Byte) : encXNN op x nn &&& 0xF000 = op ++ 0#12 :=
  encNNN_and_F000 op _

theorem encXYN_and_F000 (op : Nibble) (x y : Reg) (n : Nibble) : encXYN op x y n &&& 0xF000 = op ++ 0#12 :=
  encNNN_and_F000 op _

theorem encXNN_and_F0FF (op : Nibble) (x : Reg) (nn : Byte) :
    encXNN op x nn &&& 0xF0FF = op ++ ((0#4 ++ nn : BitVec 12)) := by
  rw [encXNN, show (0xF0FF : Word) = BitVec.allOnes 4 ++ ((0#4 ++ BitVec.allOnes 8 : BitVec 12)) from rfl,
    BitVec.and_append, BitVec.and_append]
  simp only [BitVec.and_allOnes, BitVec.and_zero]

theorem encXYN_and_F00F (op : Nibble) (x y : Reg) (n : Nibble) :
    encXYN op x y n &&& 0xF00F = op ++ ((0#4 ++ ((0#4 ++ n : BitVec 8)) : BitVec 12)) := by
  rw [encXYN, show (0xF00F : Word) =
      BitVec.allOnes 4 ++ ((0#4 ++ ((0#4 ++ BitVec.allOnes 4 : BitVec 8)) : BitVec 12)) from rfl,
    BitVec.and_append, BitVec.and_append, BitVec.and_append]
  simp only [BitVec.and_allOnes, BitVec.and_zero]

/-! Words in memory. -/

/-- The two bytes of a word, put together again. -/
@[simp] theorem wordOfBytes_split (w : Word) : wordOfBytes (w.extractLsb' 8 8) (w.extractLsb' 0 8) = w := by
  apply BitVec.eq_of_getLsbD_eq
  intro k hk
  refine (BitVec.getLsbD_append (x := w.extractLsb' 8 8) (y := w.extractLsb' 0 8)).trans ?_
  rcases Nat.lt_or_ge k 8 with h | h
  · simp [h]
  · simp [Nat.not_lt.2 h, show k - 8 < 8 by omega, show 8 + (k - 8) = k by omega]

/-- Decoding bytes in memory order is decoding the word they make. -/
theorem decode_wordBytes (w : Word) (rest : List Byte) :
    decode (wordBytes w ++ rest) =
      match decodeWord w with
      | .ok i => .ok (i, rest)
      | .error e => .error e := by
  cases h : decodeWord w <;> simp [wordBytes, decode, wordOfBytes_split, h]

end Sys2Proof
end

