-- ==== Sys2Proof/Laws/State.lean ====
section
/-! SUPPORT. One lemma per field per update of the state, so that no later proof unfolds a record update. -/

namespace Sys2Proof.Machine

variable (s : State)

/-! `State.setV`. -/

@[simp] theorem State.setV_mem (r : Reg) (b : Byte) : (s.setV r b).mem = s.mem := rfl
@[simp] theorem State.setV_v (r : Reg) (b : Byte) : (s.setV r b).v = s.v.set r b := rfl
@[simp] theorem State.setV_i (r : Reg) (b : Byte) : (s.setV r b).i = s.i := rfl
@[simp] theorem State.setV_pc (r : Reg) (b : Byte) : (s.setV r b).pc = s.pc := rfl
@[simp] theorem State.setV_stack (r : Reg) (b : Byte) : (s.setV r b).stack = s.stack := rfl
@[simp] theorem State.setV_sp (r : Reg) (b : Byte) : (s.setV r b).sp = s.sp := rfl
@[simp] theorem State.setV_dt (r : Reg) (b : Byte) : (s.setV r b).dt = s.dt := rfl
@[simp] theorem State.setV_st (r : Reg) (b : Byte) : (s.setV r b).st = s.st := rfl
@[simp] theorem State.setV_disp (r : Reg) (b : Byte) : (s.setV r b).disp = s.disp := rfl
@[simp] theorem State.setV_status (r : Reg) (b : Byte) : (s.setV r b).status = s.status := rfl
@[simp] theorem State.setV_cfg (r : Reg) (b : Byte) : (s.setV r b).cfg = s.cfg := rfl
@[simp] theorem State.setV_pending (r : Reg) (b : Byte) : (s.setV r b).pending = s.pending := rfl
@[simp] theorem State.setV_draws (r : Reg) (b : Byte) : (s.setV r b).draws = s.draws := rfl
@[simp] theorem State.setV_report (r : Reg) (b : Byte) : (s.setV r b).report = s.report := rfl
@[simp] theorem State.setV_destroyed (r : Reg) (b : Byte) : (s.setV r b).destroyed = s.destroyed := rfl

/-! `State.withV`. -/

@[simp] theorem State.withV_mem (f : Reg → Byte) : (s.withV f).mem = s.mem := rfl
@[simp] theorem State.withV_v (f : Reg → Byte) : (s.withV f).v = Vector.ofFn f := rfl
@[simp] theorem State.withV_i (f : Reg → Byte) : (s.withV f).i = s.i := rfl
@[simp] theorem State.withV_pc (f : Reg → Byte) : (s.withV f).pc = s.pc := rfl
@[simp] theorem State.withV_stack (f : Reg → Byte) : (s.withV f).stack = s.stack := rfl
@[simp] theorem State.withV_sp (f : Reg → Byte) : (s.withV f).sp = s.sp := rfl
@[simp] theorem State.withV_dt (f : Reg → Byte) : (s.withV f).dt = s.dt := rfl
@[simp] theorem State.withV_st (f : Reg → Byte) : (s.withV f).st = s.st := rfl
@[simp] theorem State.withV_disp (f : Reg → Byte) : (s.withV f).disp = s.disp := rfl
@[simp] theorem State.withV_status (f : Reg → Byte) : (s.withV f).status = s.status := rfl
@[simp] theorem State.withV_cfg (f : Reg → Byte) : (s.withV f).cfg = s.cfg := rfl
@[simp] theorem State.withV_pending (f : Reg → Byte) : (s.withV f).pending = s.pending := rfl
@[simp] theorem State.withV_draws (f : Reg → Byte) : (s.withV f).draws = s.draws := rfl
@[simp] theorem State.withV_report (f : Reg → Byte) : (s.withV f).report = s.report := rfl
@[simp] theorem State.withV_destroyed (f : Reg → Byte) : (s.withV f).destroyed = s.destroyed := rfl

/-! `State.setI`. -/

@[simp] theorem State.setI_mem (w : Word) : (s.setI w).mem = s.mem := rfl
@[simp] theorem State.setI_v (w : Word) : (s.setI w).v = s.v := rfl
@[simp] theorem State.setI_i (w : Word) : (s.setI w).i = w := rfl
@[simp] theorem State.setI_pc (w : Word) : (s.setI w).pc = s.pc := rfl
@[simp] theorem State.setI_stack (w : Word) : (s.setI w).stack = s.stack := rfl
@[simp] theorem State.setI_sp (w : Word) : (s.setI w).sp = s.sp := rfl
@[simp] theorem State.setI_dt (w : Word) : (s.setI w).dt = s.dt := rfl
@[simp] theorem State.setI_st (w : Word) : (s.setI w).st = s.st := rfl
@[simp] theorem State.setI_disp (w : Word) : (s.setI w).disp = s.disp := rfl
@[simp] theorem State.setI_status (w : Word) : (s.setI w).status = s.status := rfl
@[simp] theorem State.setI_cfg (w : Word) : (s.setI w).cfg = s.cfg := rfl
@[simp] theorem State.setI_pending (w : Word) : (s.setI w).pending = s.pending := rfl
@[simp] theorem State.setI_draws (w : Word) : (s.setI w).draws = s.draws := rfl
@[simp] theorem State.setI_report (w : Word) : (s.setI w).report = s.report := rfl
@[simp] theorem State.setI_destroyed (w : Word) : (s.setI w).destroyed = s.destroyed := rfl

/-! `State.setDT`. -/

@[simp] theorem State.setDT_mem (b : Byte) : (s.setDT b).mem = s.mem := rfl
@[simp] theorem State.setDT_v (b : Byte) : (s.setDT b).v = s.v := rfl
@[simp] theorem State.setDT_i (b : Byte) : (s.setDT b).i = s.i := rfl
@[simp] theorem State.setDT_pc (b : Byte) : (s.setDT b).pc = s.pc := rfl
@[simp] theorem State.setDT_stack (b : Byte) : (s.setDT b).stack = s.stack := rfl
@[simp] theorem State.setDT_sp (b : Byte) : (s.setDT b).sp = s.sp := rfl
@[simp] theorem State.setDT_dt (b : Byte) : (s.setDT b).dt = b := rfl
@[simp] theorem State.setDT_st (b : Byte) : (s.setDT b).st = s.st := rfl
@[simp] theorem State.setDT_disp (b : Byte) : (s.setDT b).disp = s.disp := rfl
@[simp] theorem State.setDT_status (b : Byte) : (s.setDT b).status = s.status := rfl
@[simp] theorem State.setDT_cfg (b : Byte) : (s.setDT b).cfg = s.cfg := rfl
@[simp] theorem State.setDT_pending (b : Byte) : (s.setDT b).pending = s.pending := rfl
@[simp] theorem State.setDT_draws (b : Byte) : (s.setDT b).draws = s.draws := rfl
@[simp] theorem State.setDT_report (b : Byte) : (s.setDT b).report = s.report := rfl
@[simp] theorem State.setDT_destroyed (b : Byte) : (s.setDT b).destroyed = s.destroyed := rfl

/-! `State.setST`. -/

@[simp] theorem State.setST_mem (b : Byte) : (s.setST b).mem = s.mem := rfl
@[simp] theorem State.setST_v (b : Byte) : (s.setST b).v = s.v := rfl
@[simp] theorem State.setST_i (b : Byte) : (s.setST b).i = s.i := rfl
@[simp] theorem State.setST_pc (b : Byte) : (s.setST b).pc = s.pc := rfl
@[simp] theorem State.setST_stack (b : Byte) : (s.setST b).stack = s.stack := rfl
@[simp] theorem State.setST_sp (b : Byte) : (s.setST b).sp = s.sp := rfl
@[simp] theorem State.setST_dt (b : Byte) : (s.setST b).dt = s.dt := rfl
@[simp] theorem State.setST_st (b : Byte) : (s.setST b).st = b := rfl
@[simp] theorem State.setST_disp (b : Byte) : (s.setST b).disp = s.disp := rfl
@[simp] theorem State.setST_status (b : Byte) : (s.setST b).status = s.status := rfl
@[simp] theorem State.setST_cfg (b : Byte) : (s.setST b).cfg = s.cfg := rfl
@[simp] theorem State.setST_pending (b : Byte) : (s.setST b).pending = s.pending := rfl
@[simp] theorem State.setST_draws (b : Byte) : (s.setST b).draws = s.draws := rfl
@[simp] theorem State.setST_report (b : Byte) : (s.setST b).report = s.report := rfl
@[simp] theorem State.setST_destroyed (b : Byte) : (s.setST b).destroyed = s.destroyed := rfl

/-! `State.setDisp`. -/

@[simp] theorem State.setDisp_mem (d : Display) : (s.setDisp d).mem = s.mem := rfl
@[simp] theorem State.setDisp_v (d : Display) : (s.setDisp d).v = s.v := rfl
@[simp] theorem State.setDisp_i (d : Display) : (s.setDisp d).i = s.i := rfl
@[simp] theorem State.setDisp_pc (d : Display) : (s.setDisp d).pc = s.pc := rfl
@[simp] theorem State.setDisp_stack (d : Display) : (s.setDisp d).stack = s.stack := rfl
@[simp] theorem State.setDisp_sp (d : Display) : (s.setDisp d).sp = s.sp := rfl
@[simp] theorem State.setDisp_dt (d : Display) : (s.setDisp d).dt = s.dt := rfl
@[simp] theorem State.setDisp_st (d : Display) : (s.setDisp d).st = s.st := rfl
@[simp] theorem State.setDisp_disp (d : Display) : (s.setDisp d).disp = d := rfl
@[simp] theorem State.setDisp_status (d : Display) : (s.setDisp d).status = s.status := rfl
@[simp] theorem State.setDisp_cfg (d : Display) : (s.setDisp d).cfg = s.cfg := rfl
@[simp] theorem State.setDisp_pending (d : Display) : (s.setDisp d).pending = s.pending := rfl
@[simp] theorem State.setDisp_draws (d : Display) : (s.setDisp d).draws = s.draws := rfl
@[simp] theorem State.setDisp_report (d : Display) : (s.setDisp d).report = s.report := rfl
@[simp] theorem State.setDisp_destroyed (d : Display) : (s.setDisp d).destroyed = s.destroyed := rfl

/-! `State.poke`. -/

@[simp] theorem State.poke_mem (a : Nat) (b : Byte) : (s.poke a b).mem = Memory.write s.cfg.initialByte s.mem a b := rfl
@[simp] theorem State.poke_v (a : Nat) (b : Byte) : (s.poke a b).v = s.v := rfl
@[simp] theorem State.poke_i (a : Nat) (b : Byte) : (s.poke a b).i = s.i := rfl
@[simp] theorem State.poke_pc (a : Nat) (b : Byte) : (s.poke a b).pc = s.pc := rfl
@[simp] theorem State.poke_stack (a : Nat) (b : Byte) : (s.poke a b).stack = s.stack := rfl
@[simp] theorem State.poke_sp (a : Nat) (b : Byte) : (s.poke a b).sp = s.sp := rfl
@[simp] theorem State.poke_dt (a : Nat) (b : Byte) : (s.poke a b).dt = s.dt := rfl
@[simp] theorem State.poke_st (a : Nat) (b : Byte) : (s.poke a b).st = s.st := rfl
@[simp] theorem State.poke_disp (a : Nat) (b : Byte) : (s.poke a b).disp = s.disp := rfl
@[simp] theorem State.poke_status (a : Nat) (b : Byte) : (s.poke a b).status = s.status := rfl
@[simp] theorem State.poke_cfg (a : Nat) (b : Byte) : (s.poke a b).cfg = s.cfg := rfl
@[simp] theorem State.poke_pending (a : Nat) (b : Byte) : (s.poke a b).pending = s.pending := rfl
@[simp] theorem State.poke_draws (a : Nat) (b : Byte) : (s.poke a b).draws = s.draws := rfl
@[simp] theorem State.poke_report (a : Nat) (b : Byte) : (s.poke a b).report = s.report := rfl
@[simp] theorem State.poke_destroyed (a : Nat) (b : Byte) : (s.poke a b).destroyed = s.destroyed := rfl

/-! `State.atPc`. -/

@[simp] theorem State.atPc_mem (n : Nat) : (s.atPc n).mem = s.mem := rfl
@[simp] theorem State.atPc_v (n : Nat) : (s.atPc n).v = s.v := rfl
@[simp] theorem State.atPc_i (n : Nat) : (s.atPc n).i = s.i := rfl
@[simp] theorem State.atPc_pc (n : Nat) : (s.atPc n).pc = BitVec.ofNat 16 n := rfl
@[simp] theorem State.atPc_stack (n : Nat) : (s.atPc n).stack = s.stack := rfl
@[simp] theorem State.atPc_sp (n : Nat) : (s.atPc n).sp = s.sp := rfl
@[simp] theorem State.atPc_dt (n : Nat) : (s.atPc n).dt = s.dt := rfl
@[simp] theorem State.atPc_st (n : Nat) : (s.atPc n).st = s.st := rfl
@[simp] theorem State.atPc_disp (n : Nat) : (s.atPc n).disp = s.disp := rfl
@[simp] theorem State.atPc_status (n : Nat) : (s.atPc n).status = s.status := rfl
@[simp] theorem State.atPc_cfg (n : Nat) : (s.atPc n).cfg = s.cfg := rfl
@[simp] theorem State.atPc_pending (n : Nat) : (s.atPc n).pending = s.pending := rfl
@[simp] theorem State.atPc_draws (n : Nat) : (s.atPc n).draws = s.draws := rfl
@[simp] theorem State.atPc_report (n : Nat) : (s.atPc n).report = s.report := rfl
@[simp] theorem State.atPc_destroyed (n : Nat) : (s.atPc n).destroyed = s.destroyed := rfl

/-! `State.halt`. -/

@[simp] theorem State.halt_mem (e : EngineError) : (s.halt e).mem = s.mem := rfl
@[simp] theorem State.halt_v (e : EngineError) : (s.halt e).v = s.v := rfl
@[simp] theorem State.halt_i (e : EngineError) : (s.halt e).i = s.i := rfl
@[simp] theorem State.halt_pc (e : EngineError) : (s.halt e).pc = s.pc := rfl
@[simp] theorem State.halt_stack (e : EngineError) : (s.halt e).stack = s.stack := rfl
@[simp] theorem State.halt_sp (e : EngineError) : (s.halt e).sp = s.sp := rfl
@[simp] theorem State.halt_dt (e : EngineError) : (s.halt e).dt = s.dt := rfl
@[simp] theorem State.halt_st (e : EngineError) : (s.halt e).st = s.st := rfl
@[simp] theorem State.halt_disp (e : EngineError) : (s.halt e).disp = s.disp := rfl
@[simp] theorem State.halt_status (e : EngineError) : (s.halt e).status = .halted e := rfl
@[simp] theorem State.halt_cfg (e : EngineError) : (s.halt e).cfg = s.cfg := rfl
@[simp] theorem State.halt_pending (e : EngineError) : (s.halt e).pending = s.pending := rfl
@[simp] theorem State.halt_draws (e : EngineError) : (s.halt e).draws = s.draws := rfl
@[simp] theorem State.halt_report (e : EngineError) : (s.halt e).report = .fatal e := rfl
@[simp] theorem State.halt_destroyed (e : EngineError) : (s.halt e).destroyed = s.destroyed := rfl

/-! `State.returns`. -/

@[simp] theorem State.returns_mem (g : Tag) : (s.returns g).mem = s.mem := rfl
@[simp] theorem State.returns_v (g : Tag) : (s.returns g).v = s.v := rfl
@[simp] theorem State.returns_i (g : Tag) : (s.returns g).i = s.i := rfl
@[simp] theorem State.returns_pc (g : Tag) : (s.returns g).pc = s.pc := rfl
@[simp] theorem State.returns_stack (g : Tag) : (s.returns g).stack = s.stack := rfl
@[simp] theorem State.returns_sp (g : Tag) : (s.returns g).sp = s.sp := rfl
@[simp] theorem State.returns_dt (g : Tag) : (s.returns g).dt = s.dt := rfl
@[simp] theorem State.returns_st (g : Tag) : (s.returns g).st = s.st := rfl
@[simp] theorem State.returns_disp (g : Tag) : (s.returns g).disp = s.disp := rfl
@[simp] theorem State.returns_status (g : Tag) : (s.returns g).status = s.status := rfl
@[simp] theorem State.returns_cfg (g : Tag) : (s.returns g).cfg = s.cfg := rfl
@[simp] theorem State.returns_pending (g : Tag) : (s.returns g).pending = s.pending := rfl
@[simp] theorem State.returns_draws (g : Tag) : (s.returns g).draws = s.draws := rfl
@[simp] theorem State.returns_report (g : Tag) : (s.returns g).report = .outcome g := rfl
@[simp] theorem State.returns_destroyed (g : Tag) : (s.returns g).destroyed = s.destroyed := rfl

/-! `State.tick`. -/

@[simp] theorem State.tick_mem : (s.tick).mem = s.mem := rfl
@[simp] theorem State.tick_v : (s.tick).v = s.v := rfl
@[simp] theorem State.tick_i : (s.tick).i = s.i := rfl
@[simp] theorem State.tick_pc : (s.tick).pc = s.pc := rfl
@[simp] theorem State.tick_stack : (s.tick).stack = s.stack := rfl
@[simp] theorem State.tick_sp : (s.tick).sp = s.sp := rfl
@[simp] theorem State.tick_dt : (s.tick).dt = countDown s.dt := rfl
@[simp] theorem State.tick_st : (s.tick).st = countDown s.st := rfl
@[simp] theorem State.tick_disp : (s.tick).disp = s.disp := rfl
@[simp] theorem State.tick_status : (s.tick).status = s.status := rfl
@[simp] theorem State.tick_cfg : (s.tick).cfg = s.cfg := rfl
@[simp] theorem State.tick_pending : (s.tick).pending = s.pending := rfl
@[simp] theorem State.tick_draws : (s.tick).draws = s.draws := rfl
@[simp] theorem State.tick_report : (s.tick).report = .nothing := rfl
@[simp] theorem State.tick_destroyed : (s.tick).destroyed = s.destroyed := rfl

/-! `State.destroy`. -/

@[simp] theorem State.destroy_mem : (s.destroy).mem = s.mem := rfl
@[simp] theorem State.destroy_v : (s.destroy).v = s.v := rfl
@[simp] theorem State.destroy_i : (s.destroy).i = s.i := rfl
@[simp] theorem State.destroy_pc : (s.destroy).pc = s.pc := rfl
@[simp] theorem State.destroy_stack : (s.destroy).stack = s.stack := rfl
@[simp] theorem State.destroy_sp : (s.destroy).sp = s.sp := rfl
@[simp] theorem State.destroy_dt : (s.destroy).dt = s.dt := rfl
@[simp] theorem State.destroy_st : (s.destroy).st = s.st := rfl
@[simp] theorem State.destroy_disp : (s.destroy).disp = s.disp := rfl
@[simp] theorem State.destroy_status : (s.destroy).status = s.status := rfl
@[simp] theorem State.destroy_cfg : (s.destroy).cfg = s.cfg := rfl
@[simp] theorem State.destroy_pending : (s.destroy).pending = s.pending := rfl
@[simp] theorem State.destroy_draws : (s.destroy).draws = s.draws := rfl
@[simp] theorem State.destroy_report : (s.destroy).report = .nothing := rfl
@[simp] theorem State.destroy_destroyed : (s.destroy).destroyed = true := rfl

/-! `State.moved`. -/

@[simp] theorem State.moved_mem (k : Nat) (g : Tag) : (s.moved k g).mem = s.mem := rfl
@[simp] theorem State.moved_v (k : Nat) (g : Tag) : (s.moved k g).v = s.v := rfl
@[simp] theorem State.moved_i (k : Nat) (g : Tag) : (s.moved k g).i = s.i := rfl
@[simp] theorem State.moved_pc (k : Nat) (g : Tag) : (s.moved k g).pc = BitVec.ofNat 16 (s.pc.toNat + k) := rfl
@[simp] theorem State.moved_stack (k : Nat) (g : Tag) : (s.moved k g).stack = s.stack := rfl
@[simp] theorem State.moved_sp (k : Nat) (g : Tag) : (s.moved k g).sp = s.sp := rfl
@[simp] theorem State.moved_dt (k : Nat) (g : Tag) : (s.moved k g).dt = s.dt := rfl
@[simp] theorem State.moved_st (k : Nat) (g : Tag) : (s.moved k g).st = s.st := rfl
@[simp] theorem State.moved_disp (k : Nat) (g : Tag) : (s.moved k g).disp = s.disp := rfl
@[simp] theorem State.moved_status (k : Nat) (g : Tag) : (s.moved k g).status = s.status := rfl
@[simp] theorem State.moved_cfg (k : Nat) (g : Tag) : (s.moved k g).cfg = s.cfg := rfl
@[simp] theorem State.moved_pending (k : Nat) (g : Tag) : (s.moved k g).pending = s.pending := rfl
@[simp] theorem State.moved_draws (k : Nat) (g : Tag) : (s.moved k g).draws = s.draws := rfl
@[simp] theorem State.moved_report (k : Nat) (g : Tag) : (s.moved k g).report = .outcome g := rfl
@[simp] theorem State.moved_destroyed (k : Nat) (g : Tag) : (s.moved k g).destroyed = s.destroyed := rfl

/-! `State.consume`: only the host's list and the count of free draws change. -/

@[simp] theorem State.consume_mem : s.consume.mem = s.mem := by unfold State.consume; split <;> rfl
@[simp] theorem State.consume_v : s.consume.v = s.v := by unfold State.consume; split <;> rfl
@[simp] theorem State.consume_i : s.consume.i = s.i := by unfold State.consume; split <;> rfl
@[simp] theorem State.consume_pc : s.consume.pc = s.pc := by unfold State.consume; split <;> rfl
@[simp] theorem State.consume_stack : s.consume.stack = s.stack := by unfold State.consume; split <;> rfl
@[simp] theorem State.consume_sp : s.consume.sp = s.sp := by unfold State.consume; split <;> rfl
@[simp] theorem State.consume_dt : s.consume.dt = s.dt := by unfold State.consume; split <;> rfl
@[simp] theorem State.consume_st : s.consume.st = s.st := by unfold State.consume; split <;> rfl
@[simp] theorem State.consume_disp : s.consume.disp = s.disp := by unfold State.consume; split <;> rfl
@[simp] theorem State.consume_status : s.consume.status = s.status := by unfold State.consume; split <;> rfl
@[simp] theorem State.consume_cfg : s.consume.cfg = s.cfg := by unfold State.consume; split <;> rfl
@[simp] theorem State.consume_report : s.consume.report = s.report := by unfold State.consume; split <;> rfl
@[simp] theorem State.consume_destroyed : s.consume.destroyed = s.destroyed := by unfold State.consume; split <;> rfl

/-! Registers read and bytes peeked through an update that does not touch them. -/

@[simp] theorem State.getV_setI (w : Word) (r : Reg) : (s.setI w).getV r = s.getV r := rfl
@[simp] theorem State.getV_setDT (b : Byte) (r : Reg) : (s.setDT b).getV r = s.getV r := rfl
@[simp] theorem State.getV_setST (b : Byte) (r : Reg) : (s.setST b).getV r = s.getV r := rfl
@[simp] theorem State.getV_setDisp (d : Display) (r : Reg) : (s.setDisp d).getV r = s.getV r := rfl
@[simp] theorem State.getV_atPc (n : Nat) (r : Reg) : (s.atPc n).getV r = s.getV r := rfl
@[simp] theorem State.getV_halt (e : EngineError) (r : Reg) : (s.halt e).getV r = s.getV r := rfl
@[simp] theorem State.getV_returns (g : Tag) (r : Reg) : (s.returns g).getV r = s.getV r := rfl
@[simp] theorem State.getV_moved (k : Nat) (g : Tag) (r : Reg) : (s.moved k g).getV r = s.getV r := rfl
@[simp] theorem State.getV_tick (r : Reg) : (s.tick).getV r = s.getV r := rfl
@[simp] theorem State.getV_destroy (r : Reg) : (s.destroy).getV r = s.getV r := rfl
@[simp] theorem State.getV_poke (a : Nat) (b : Byte) (r : Reg) : (s.poke a b).getV r = s.getV r := rfl
@[simp] theorem State.peek_setI (w : Word) (c : Nat) : (s.setI w).peek c = s.peek c := rfl
@[simp] theorem State.peek_setDT (b : Byte) (c : Nat) : (s.setDT b).peek c = s.peek c := rfl
@[simp] theorem State.peek_setST (b : Byte) (c : Nat) : (s.setST b).peek c = s.peek c := rfl
@[simp] theorem State.peek_setDisp (d : Display) (c : Nat) : (s.setDisp d).peek c = s.peek c := rfl
@[simp] theorem State.peek_atPc (n : Nat) (c : Nat) : (s.atPc n).peek c = s.peek c := rfl
@[simp] theorem State.peek_halt (e : EngineError) (c : Nat) : (s.halt e).peek c = s.peek c := rfl
@[simp] theorem State.peek_returns (g : Tag) (c : Nat) : (s.returns g).peek c = s.peek c := rfl
@[simp] theorem State.peek_moved (k : Nat) (g : Tag) (c : Nat) : (s.moved k g).peek c = s.peek c := rfl
@[simp] theorem State.peek_tick (c : Nat) : (s.tick).peek c = s.peek c := rfl
@[simp] theorem State.peek_destroy (c : Nat) : (s.destroy).peek c = s.peek c := rfl
@[simp] theorem State.peek_setV (r : Reg) (b : Byte) (c : Nat) : (s.setV r b).peek c = s.peek c := rfl
@[simp] theorem State.peek_withV (f : Reg → Byte) (c : Nat) : (s.withV f).peek c = s.peek c := rfl

/-! Registers. -/

@[simp] theorem State.getV_setV (r q : Reg) (b : Byte) :
    (s.setV r b).getV q = if q = r then b else s.getV q := by
  simp only [State.getV, State.setV, Fin.getElem_fin, Vector.getElem_set, Fin.ext_iff, eq_comm]

@[simp] theorem State.getV_withV (f : Reg → Byte) (q : Reg) : (s.withV f).getV q = f q := by
  simp [State.getV, State.withV]

/-- Two states that hold the same registers and are otherwise the same are the same. -/
theorem State.withV_getV : s.withV s.getV = s := by
  have h : Vector.ofFn s.getV = s.v := by
    ext k hk
    simp [State.getV]
  simp [State.withV, h]

/-- Two ways of writing registers agree when the registers end the same and nothing else differs. -/
theorem State.eq_withV {s : State} (t : State) (f : Reg → Byte) (hv : ∀ r, t.getV r = f r)
    (ht : t = { s with v := t.v }) : t = s.withV f := by
  have h : t.v = Vector.ofFn f := by
    ext1 k hk
    simpa [State.getV] using hv ⟨k, hk⟩
  rw [State.withV, ← h]
  exact ht

theorem State.setV_eq_withV (r : Reg) (b : Byte) :
    s.setV r b = s.withV fun q => if q = r then b else s.getV q :=
  State.eq_withV _ _ (fun q => State.getV_setV s r q b) rfl

/-- A result and its flag: VF holds the flag, and with x = 15 the result is lost (10_state R23). -/
theorem State.setWithFlag_eq_withV (x : Reg) (b : Byte) (f : Bool) :
    s.setWithFlag x b f =
      s.withV fun q => if q = Reg.vf then flagByte f else if q = x then b else s.getV q :=
  State.eq_withV _ _ (fun q => by simp [State.setWithFlag]) rfl

end Sys2Proof.Machine
end

