-- ==== Sys2Proof/Laws/Memory.lean ====
section
/-! SUPPORT. Memory: a read after a write, other addresses, and that every memory operation keeps the canonical form. -/

namespace Sys2Proof.Machine

/-- A write leaves every other address alone. -/
theorem Memory.read_write_other (base : Nat → Byte) (m : Memory) {a c : Nat} (v : Byte) (h : c ≠ a) :
    Memory.read base (Memory.write base m a v) c = Memory.read base m c := by
  induction m with
  | nil => by_cases hv : v = base a <;> simp [Memory.write, Memory.read, hv, h]
  | cons e rest ih =>
    obtain ⟨b, w⟩ := e
    simp only [Memory.write]
    split
    · split <;> simp [Memory.read, h]
    · split
      · subst_vars
        split <;> simp [Memory.read, h]
      · simp [Memory.read, ih]

/-- An address below every listed one reads as the base. -/
theorem Memory.read_below (base : Nat → Byte) (m : Memory) {lo a : Nat} (h : Memory.wfFrom base lo m = true)
    (ha : a < lo) : Memory.read base m a = base a := by
  induction m generalizing lo with
  | nil => rfl
  | cons e rest ih =>
    obtain ⟨b, w⟩ := e
    simp only [Memory.wfFrom, Bool.and_eq_true, decide_eq_true_eq] at h
    have hne : a ≠ b := by omega
    simp [Memory.read, hne, ih h.2 (by omega)]

/-- A read after a write to the same address gives the byte written. -/
theorem Memory.read_write_same (base : Nat → Byte) (m : Memory) {lo : Nat} (a : Nat) (v : Byte)
    (h : Memory.wfFrom base lo m = true) : Memory.read base (Memory.write base m a v) a = v := by
  induction m generalizing lo with
  | nil => by_cases hv : v = base a <;> simp [Memory.write, Memory.read, hv]
  | cons e rest ih =>
    obtain ⟨b, w⟩ := e
    simp only [Memory.wfFrom, Bool.and_eq_true, decide_eq_true_eq] at h
    simp only [Memory.write]
    split
    · split
      · rename_i hab hv
        rw [Memory.read, if_neg (by omega), Memory.read_below base rest h.2 (by omega), hv]
      · simp [Memory.read]
    · split
      · subst_vars
        split
        · rename_i hv
          rw [Memory.read_below base rest h.2 (Nat.lt_succ_self _), hv]
        · simp [Memory.read]
      · rename_i hab hne
        rw [Memory.read, if_neg hne, ih h.2]

/-- Being at least `lo` is weaker for a smaller `lo`. -/
theorem Memory.wfFrom_mono (base : Nat → Byte) (m : Memory) {lo lo' : Nat} (hl : lo' ≤ lo)
    (h : Memory.wfFrom base lo m = true) : Memory.wfFrom base lo' m = true := by
  cases m with
  | nil => rfl
  | cons e rest =>
    simp only [Memory.wfFrom, Bool.and_eq_true, decide_eq_true_eq] at h ⊢
    exact ⟨⟨⟨by omega, h.1.1.2⟩, h.1.2⟩, h.2⟩

theorem Memory.wfFrom_write (base : Nat → Byte) (m : Memory) {lo a : Nat} (v : Byte) (ha : a < 0x1000)
    (hlo : lo ≤ a) (h : Memory.wfFrom base lo m = true) :
    Memory.wfFrom base lo (Memory.write base m a v) = true := by
  induction m generalizing lo with
  | nil => by_cases hv : v = base a <;> simp [Memory.write, Memory.wfFrom, hv, ha, hlo]
  | cons e rest ih =>
    obtain ⟨b, w⟩ := e
    have h0 := h
    simp only [Memory.wfFrom, Bool.and_eq_true, decide_eq_true_eq] at h
    simp only [Memory.write]
    split
    · split
      · exact h0
      · rename_i hab hv
        simp [Memory.wfFrom, hlo, ha, hv, h.1.1.2, h.1.2, h.2]
        omega
    · split
      · subst_vars
        split
        · exact Memory.wfFrom_mono base rest (by omega) h.2
        · rename_i hv
          simp [Memory.wfFrom, hlo, ha, hv, h.2]
      · rename_i h1 h2
        simp only [Memory.wfFrom, Bool.and_eq_true, decide_eq_true_eq]
        exact ⟨h.1, ih (by omega) h.2⟩

/-- Writing a byte below 0x1000 keeps the canonical form. -/
theorem Memory.wf_write (base : Nat → Byte) (m : Memory) {a : Nat} (v : Byte) (ha : a < 0x1000)
    (h : Memory.wf base m = true) : Memory.wf base (Memory.write base m a v) = true :=
  Memory.wfFrom_write base m v ha (Nat.zero_le a) h

/-! The state's memory. -/

theorem State.peek_poke_same (s : State) (a : Nat) (b : Byte) (h : s.MemOk) : (s.poke a b).peek a = b :=
  Memory.read_write_same _ _ _ _ h

theorem State.peek_poke_other (s : State) {a c : Nat} (b : Byte) (h : c ≠ a) : (s.poke a b).peek c = s.peek c :=
  Memory.read_write_other _ _ _ h

theorem State.memOk_poke (s : State) {a : Nat} (b : Byte) (ha : a < 0x1000) (h : s.MemOk) : (s.poke a b).MemOk :=
  Memory.wf_write _ _ _ ha h

/-- Everything `pokeBytes` can do: it changes memory only, and no address outside the bytes. -/
theorem State.pokeBytes_frame (bs : List Byte) : ∀ (s : State) (a : Nat),
    s.pokeBytes a bs = { s with mem := (s.pokeBytes a bs).mem } ∧
      ∀ c, (c < a ∨ a + bs.length ≤ c) → (s.pokeBytes a bs).peek c = s.peek c := by
  induction bs with
  | nil => exact fun s a => ⟨rfl, fun _ _ => rfl⟩
  | cons b bs ih =>
    intro s a
    obtain ⟨h1, h2⟩ := ih (s.poke a b) (a + 1)
    refine ⟨by rw [State.pokeBytes, h1]; rfl, fun c hc => ?_⟩
    simp only [List.length_cons] at hc
    rw [State.pokeBytes, h2 c (by omega), State.peek_poke_other s b (by omega)]

/-- Inside the bytes, `pokeBytes` leaves what it wrote, and it keeps the canonical form. -/
theorem State.pokeBytes_spec (bs : List Byte) : ∀ (s : State) (a : Nat), a + bs.length ≤ 0x1000 → s.MemOk →
    (s.pokeBytes a bs).MemOk ∧ ∀ k, k < bs.length → (s.pokeBytes a bs).peek (a + k) = bs.getD k 0 := by
  induction bs with
  | nil => exact fun s a _ h => ⟨h, fun k hk => absurd hk (Nat.not_lt_zero k)⟩
  | cons b bs ih =>
    intro s a ha h
    simp only [List.length_cons] at ha
    obtain ⟨h1, h2⟩ := ih (s.poke a b) (a + 1) (by omega) (State.memOk_poke s b (by omega) h)
    refine ⟨h1, fun k hk => ?_⟩
    cases k with
    | zero =>
      rw [State.pokeBytes, (State.pokeBytes_frame bs (s.poke a b) (a + 1)).2 _ (by omega)]
      exact State.peek_poke_same s a b h
    | succ k =>
      rw [State.pokeBytes, show a + (k + 1) = a + 1 + k by omega, h2 k (by simpa using hk)]
      rfl

/-- The memory at reset is canonical. -/
theorem State.memOk_fresh (c : Config) : (State.fresh c).MemOk := rfl

end Sys2Proof.Machine
end

