-- ==== Sys2Proof/Laws/Ops.lean ====
section
/-! SUPPORT. One lemma for each shared operation that says everything it can do. -/

namespace Sys2Proof.Machine

/-! The program counter. -/

/-- NextPC answers a state exactly when the target is even and below 0x1000, and then only pc changes. -/
theorem State.nextPC_eq_ok {s t : State} {n : Nat} :
    s.nextPC n = .ok t ↔ n < 0x1000 ∧ n % 2 = 0 ∧ t = s.atPc n := by
  unfold State.nextPC State.atPc
  split
  · simp; omega
  · split
    · simp; omega
    · simp only [Except.ok.injEq]
      constructor
      · rintro rfl
        exact ⟨by omega, by omega, rfl⟩
      · rintro ⟨-, -, rfl⟩
        rfl

theorem State.nextPC_of_ok (s : State) {n : Nat} (h1 : n < 0x1000) (h2 : n % 2 = 0) :
    s.nextPC n = .ok (s.atPc n) :=
  State.nextPC_eq_ok.2 ⟨h1, h2, rfl⟩

theorem State.nextPC_outOfRange (s : State) {n : Nat} (h : 0x1000 ≤ n) : s.nextPC n = .error .pcOutOfRange := by
  simp [State.nextPC, h]

theorem State.nextPC_misaligned (s : State) {n : Nat} (h1 : n < 0x1000) (h2 : n % 2 = 1) :
    s.nextPC n = .error .pcMisaligned := by
  simp [State.nextPC, h2, Nat.not_le.2 h1]

theorem State.advance_of_room (s : State) (h : s.RoomFor 2) : s.advance = .ok (s.atPc (s.pc.toNat + 2)) :=
  State.nextPC_of_ok s h.2 (by have := h.1; omega)

theorem State.skip_of_room (s : State) (c : Bool) (h : s.RoomFor (if c then 4 else 2)) :
    s.skip c = .ok (s.atPc (s.pc.toNat + if c then 4 else 2)) :=
  State.nextPC_of_ok s h.2 (by have := h.1; cases c <;> simp <;> omega)

/-! Completing an instruction. -/

@[simp] theorem State.complete_ok (s t : State) (g : Tag) : s.complete g (.ok t) = .next (t.returns g) := rfl

@[simp] theorem State.complete_error (s : State) (g : Tag) (e : EngineError) :
    s.complete g (.error e) = .next (s.halt e) := rfl

/-- An instruction ends in its writes and its tag, or in its fatal error with nothing committed. -/
theorem State.complete_eq_next {s u : State} {g : Tag} {r : Except EngineError State} :
    s.complete g r = .next u ↔ (∃ t, r = .ok t ∧ u = t.returns g) ∨ (∃ e, r = .error e ∧ u = s.halt e) := by
  cases r <;> simp [eq_comm]

/-! Memory primitives. -/

theorem State.memRead_of_le (s : State) {a : Nat} (h : a ≤ 0xFFF) : s.memRead a = .ok (s.peek a) := by
  simp [State.memRead, Nat.not_lt.2 h]

theorem State.memWrite_of_le (s : State) {a : Nat} (b : Byte) (h : a ≤ 0xFFF) : s.memWrite a b = .ok (s.poke a b) := by
  simp [State.memWrite, Nat.not_lt.2 h]

/-- Everything `readBytes` can do: the bytes in order when all lie in memory, else the memory error. -/
theorem State.readBytes_spec (s : State) (n : Nat) : ∀ a : Nat,
    s.readBytes a n =
      if n = 0 ∨ a + n ≤ 0x1000 then .ok ((List.range n).map fun k => s.peek (a + k))
      else .error .memoryOutOfBounds := by
  induction n with
  | zero => intro a; simp [State.readBytes]
  | succ n ih =>
    intro a
    rw [State.readBytes, ih]
    by_cases h : a ≤ 0xFFF
    · rw [State.memRead_of_le s h]
      by_cases h2 : n = 0 ∨ a + 1 + n ≤ 0x1000
      · have h3 : n + 1 = 0 ∨ a + (n + 1) ≤ 0x1000 := by omega
        simp only [h2, h3, if_true, Except.bind, List.range_succ_eq_map, List.map_cons, List.map_map]
        simp [Function.comp_def, Nat.add_assoc, Nat.add_comm 1]
      · have h3 : ¬(n + 1 = 0 ∨ a + (n + 1) ≤ 0x1000) := by omega
        rw [if_neg h2, if_neg h3]
        rfl
    · have h3 : ¬(n + 1 = 0 ∨ a + (n + 1) ≤ 0x1000) := by omega
      have h4 : s.memRead a = .error .memoryOutOfBounds := by simp [State.memRead, Nat.lt_of_not_le h]
      rw [h4, if_neg h3]
      rfl

/-- Everything `writeBytes` can do: all the bytes when all lie in memory, else the memory error. -/
theorem State.writeBytes_spec (bs : List Byte) : ∀ (s : State) (a : Nat),
    s.writeBytes a bs =
      if bs = [] ∨ a + bs.length ≤ 0x1000 then .ok (s.pokeBytes a bs) else .error .memoryOutOfBounds := by
  induction bs with
  | nil => intro s a; simp [State.writeBytes, State.pokeBytes]
  | cons b bs ih =>
    intro s a
    simp only [State.writeBytes, State.pokeBytes, List.length_cons, reduceCtorEq, false_or]
    by_cases h : a ≤ 0xFFF
    · rw [State.memWrite_of_le s b h]
      simp only [Except.bind, ih]
      have e : (bs = [] ∨ a + 1 + bs.length ≤ 0x1000) ↔ a + (bs.length + 1) ≤ 0x1000 := by
        cases bs <;> simp <;> omega
      simp only [e]
    · have h4 : s.memWrite a b = .error .memoryOutOfBounds := by simp [State.memWrite, Nat.lt_of_not_le h]
      rw [h4, if_neg (by omega)]
      rfl

/-- Fetch reads the two bytes at pc, high byte first. -/
theorem State.fetch_of_le (s : State) (h : s.pc.toNat ≤ 0xFFE) :
    s.fetch = .ok (wordOfBytes (s.peek s.pc.toNat) (s.peek (s.pc.toNat + 1))) := by
  rw [State.fetch, State.memRead_of_le s (by omega), State.memRead_of_le s (by omega)]
  rfl

/-! The stack. -/

/-- Push answers a state exactly when a slot is free. -/
theorem State.push_eq_ok {s t : State} {a : Word} :
    s.push a = .ok t ↔ s.sp + 1 < s.cfg.stackCapacity ∧
      t = { s with sp := s.sp + 1, stack := s.stack.set (s.sp + 1).toNat a } := by
  unfold State.push
  split
  · simp; omega
  · simp only [Except.ok.injEq, eq_comm (b := t)]
    exact ⟨fun h => ⟨by omega, h⟩, fun h => h.2⟩

/-- Pop answers the address on top exactly when the stack is not empty. -/
theorem State.pop_eq_ok {s t : State} {a : Word} :
    s.pop = .ok (a, t) ↔ s.sp ≠ -1 ∧ a = s.slot s.sp.toNat ∧ t = { s with sp := s.sp - 1 } := by
  unfold State.pop
  split <;> simp [*, eq_comm]

/-! The register ranges. -/

theorem mem_regsUpTo (x r : Reg) : r ∈ regsUpTo x ↔ r ≤ x := by
  revert x r
  decide

theorem length_regsUpTo (x : Reg) : (regsUpTo x).length = x.val + 1 := by
  revert x
  decide

/-- `regsUpTo` lists V0..Vx ascending: entry k is register k. -/
theorem getElem_regsUpTo (x : Reg) (k : Nat) (h : k < (regsUpTo x).length) : ((regsUpTo x)[k]).val = k := by
  have h16 : k < 16 := by rw [length_regsUpTo] at h; omega
  simp only [regsUpTo, List.getElem_take]
  interval_cases k <;> rfl

/-- Everything `setRegs` can do: V changes and nothing else. -/
theorem State.setRegs_frame (rs : List Reg) : ∀ (bs : List Byte) (s : State),
    s.setRegs rs bs = { s with v := (s.setRegs rs bs).v } := by
  induction rs with
  | nil => intro bs s; cases bs <;> rfl
  | cons r rs ih =>
    intro bs s
    cases bs with
    | nil => rfl
    | cons b bs => rw [State.setRegs, ih bs (s.setV r b)]; rfl

/-- `setRegs` over V0..Vx puts byte k into register k and leaves the registers above x (42_addressing R185). -/
theorem State.getV_setRegs (s : State) (x : Reg) (f : Nat → Byte) (r : Reg) :
    (s.setRegs (regsUpTo x) ((List.range (x.val + 1)).map f)).getV r = if r ≤ x then f r.val else s.getV r := by
  have key : ∀ (rs : List Reg) (k : Nat) (s : State), (∀ j (hj : j < rs.length), (rs[j]).val = k + j) →
      (s.setRegs rs ((List.range rs.length).map fun j => f (k + j))).getV r =
        if k ≤ r.val ∧ r.val < k + rs.length then f r.val else s.getV r := by
    intro rs
    induction rs with
    | nil =>
      intro k s _
      simp only [State.setRegs, List.length_nil]
      rw [if_neg (by omega)]
    | cons q rs ih =>
      intro k s h
      have h0 : q.val = k := h 0 (Nat.zero_lt_succ _)
      have hs := ih (k + 1) (s.setV q (f k)) fun j hj => by
        have := h (j + 1) (by simpa using hj)
        simp at this
        omega
      have e : ((fun j => f (k + j)) ∘ Nat.succ) = fun j => f (k + 1 + j) := by
        funext j
        simp [Nat.add_assoc, Nat.add_comm 1]
      simp only [List.length_cons, List.range_succ_eq_map, List.map_cons, List.map_map, State.setRegs]
      rw [e, Nat.add_zero, hs, State.getV_setV]
      by_cases hq : r = q
      · subst hq
        simp [h0]
      · have hk : r.val ≠ k := fun hk => hq (Fin.ext (by omega))
        by_cases h5 : k ≤ r.val ∧ r.val < k + (rs.length + 1)
        · rw [if_pos h5, if_pos (by omega)]
        · rw [if_neg h5, if_neg (by omega), if_neg hq]
  have h := key (regsUpTo x) 0 s fun j hj => by rw [getElem_regsUpTo]; omega
  rw [length_regsUpTo] at h
  simp only [Nat.zero_add, Nat.zero_le, true_and] at h
  have hx : r.val < x.val + 1 ↔ r ≤ x := by rw [Fin.le_def]; omega
  simp [h, hx]

/-! Answers. -/

@[simp] theorem mapNext_next (f : State → State) (s : State) : mapNext f (.next s) = .next (f s) := rfl

/-- A changed answer is a next state exactly when the answer was. -/
theorem mapNext_eq_next {f : State → State} {r : Result} {t : State} :
    mapNext f r = .next t ↔ ∃ u, r = .next u ∧ f u = t := by
  cases r <;> simp [mapNext]

end Sys2Proof.Machine
end

