-- ==== Sys2Proof/Laws/Display.lean ====
section
/-! SUPPORT. The display: a pixel after a plot, and what drawing a whole sprite does to every pixel and to the collision. -/

namespace Sys2Proof.Machine

@[simp] theorem Display.get_set (d : Display) (px qx : Fin 64) (py qy : Fin 32) (b : Bool) :
    Display.get (Display.set d px py b) qx qy = if px = qx ∧ py = qy then b else Display.get d qx qy := by
  simp only [Display.get, Display.set, Fin.getElem_fin, Vector.getElem_set, Fin.ext_iff]
  by_cases h : px.val = qx.val
  · simp only [h, if_true, true_and, Vector.getElem_set]
  · simp [h]

@[simp] theorem Display.get_blank (px : Fin 64) (py : Fin 32) : Display.get Display.blank px py = false := by
  simp [Display.get, Display.blank]

/-- Two displays with the same pixels are the same. -/
theorem Display.ext_get {d e : Display} (h : ∀ px py, Display.get d px py = Display.get e px py) : d = e := by
  apply Vector.ext
  intro k hk
  apply Vector.ext
  intro j hj
  exact h ⟨k, hk⟩ ⟨j, hj⟩

/-- A plot XORs its bit into its pixel and touches no other. -/
theorem get_plot (d : Display) (c b : Bool) (px qx : Fin 64) (py qy : Fin 32) :
    Display.get (plot (d, c) px py b).1 qx qy = (Display.get d qx qy ^^ (px == qx && py == qy && b)) := by
  unfold plot
  by_cases h : px = qx ∧ py = qy
  · obtain ⟨rfl, rfl⟩ := h
    cases b <;> cases hd : Display.get d px py <;> simp [hd]
  · have hb : (px == qx && py == qy) = false := by
      simpa [Bool.eq_false_iff] using h
    rw [hb]
    cases b <;> cases Display.get d px py <;> simp [h]

/-- A plot collides when its bit is 1 and its pixel was on. -/
theorem collision_plot (d : Display) (c b : Bool) (px : Fin 64) (py : Fin 32) :
    (plot (d, c) px py b).2 = (c || (b && Display.get d px py)) := by
  unfold plot
  cases b <;> cases Display.get d px py <;> simp

/-- One plot: a column, a row and the sprite's bit. -/
abbrev Plot := Fin 64 × Fin 32 × Bool

/-- Plots at different pixels: every pixel is XORed with its own plot's bit, and there is a collision when some bit is 1 over
a pixel that was on before the first plot. -/
theorem foldl_plot (l : List Plot) (hn : (l.map fun e => (e.1, e.2.1)).Nodup) : ∀ (d : Display) (c : Bool),
    (∀ qx qy, Display.get (l.foldl (fun dc e => plot dc e.1 e.2.1 e.2.2) (d, c)).1 qx qy =
      (Display.get d qx qy ^^ l.any fun e => e.1 == qx && e.2.1 == qy && e.2.2)) ∧
    (l.foldl (fun dc e => plot dc e.1 e.2.1 e.2.2) (d, c)).2 =
      (c || l.any fun e => e.2.2 && Display.get d e.1 e.2.1) := by
  induction l with
  | nil => intro d c; simp
  | cons e l ih =>
    intro d c
    obtain ⟨px, py, b⟩ := e
    simp only [List.map_cons, List.nodup_cons, List.mem_map, not_exists, not_and] at hn
    obtain ⟨hne, hl⟩ := hn
    have hdiff : ∀ e ∈ l, ¬(px = e.1 ∧ py = e.2.1) := fun e he h => hne e he (by rw [h.1, h.2])
    obtain ⟨h1, h2⟩ := ih hl (plot (d, c) px py b).1 (plot (d, c) px py b).2
    simp only [List.foldl_cons, List.any_cons]
    refine ⟨fun qx qy => ?_, ?_⟩
    · rw [h1, get_plot]
      by_cases hq : px = qx ∧ py = qy
      · have : (l.any fun e => e.1 == qx && e.2.1 == qy && e.2.2) = false := by
          rw [List.any_eq_false]
          intro e he h
          simp only [Bool.and_eq_true, beq_iff_eq] at h
          exact hdiff e he ⟨hq.1.trans h.1.1.symm, hq.2.trans h.1.2.symm⟩
        rw [this]
        simp
      · have : (px == qx && py == qy) = false := by simpa [Bool.eq_false_iff] using hq
        simp [this]
    · rw [h2, collision_plot]
      have : (l.any fun e => e.2.2 && Display.get (plot (d, c) px py b).1 e.1 e.2.1) =
          l.any fun e => e.2.2 && Display.get d e.1 e.2.1 := by
        have hsame : ∀ e ∈ l, Display.get (plot (d, c) px py b).1 e.1 e.2.1 = Display.get d e.1 e.2.1 := by
          intro e he
          have : (px == e.1 && py == e.2.1) = false := by simpa [Bool.eq_false_iff] using hdiff e he
          rw [get_plot, this]
          simp
        rw [Bool.eq_iff_iff, List.any_eq_true, List.any_eq_true]
        exact exists_congr fun e => and_congr_right fun he => by rw [hsame e he]
      rw [this, Bool.or_assoc]

/-- The plots of a sprite from row `r` on, in the order DXYN makes them. -/
def spritePlots (vx vy : Byte) : Nat → List Byte → List Plot
  | _, [] => []
  | r, b :: bs =>
    spriteCols.map (fun col => (pixelX vx col, pixelY vy r, b.getLsbD (7 - col))) ++ spritePlots vx vy (r + 1) bs

/-- Drawing is making the sprite's plots in order. -/
theorem drawRows_eq_foldl (vx vy : Byte) (bs : List Byte) : ∀ (r : Nat) (dc : Display × Bool),
    drawRows vx vy r bs dc = (spritePlots vx vy r bs).foldl (fun dc e => plot dc e.1 e.2.1 e.2.2) dc := by
  induction bs with
  | nil => intro r dc; rfl
  | cons b bs ih =>
    intro r dc
    rw [drawRows, ih, spritePlots, List.foldl_append, List.foldl_map]
    rfl

theorem mem_spriteCols (col : Nat) : col ∈ spriteCols ↔ col < 8 := by
  simp only [spriteCols, List.mem_cons, List.not_mem_nil, or_false]
  omega

/-- Every plot of a sprite is a column below 8 of one of its rows. -/
theorem mem_spritePlots (vx vy : Byte) (bs : List Byte) (e : Plot) : ∀ r : Nat,
    e ∈ spritePlots vx vy r bs ↔ ∃ k col, k < bs.length ∧ col < 8 ∧
      e = (pixelX vx col, pixelY vy (r + k), (bs.getD k 0).getLsbD (7 - col)) := by
  induction bs with
  | nil => intro r; simp [spritePlots]
  | cons b bs ih =>
    intro r
    rw [spritePlots, List.mem_append, ih]
    constructor
    · rintro (h | ⟨k, col, hk, hc, rfl⟩)
      · obtain ⟨col, hc, rfl⟩ := List.mem_map.1 h
        exact ⟨0, col, by simp, (mem_spriteCols col).1 hc, by simp⟩
      · exact ⟨k + 1, col, by simpa using hk, hc, by simp [Nat.add_assoc, Nat.add_comm 1]⟩
    · rintro ⟨k, col, hk, hc, rfl⟩
      cases k with
      | zero => exact .inl (List.mem_map.2 ⟨col, (mem_spriteCols col).2 hc, by simp⟩)
      | succ k =>
        refine .inr ⟨k, col, by simpa using hk, hc, ?_⟩
        simp [Nat.add_assoc, Nat.add_comm 1]

/-- A sprite of at most 32 rows addresses no pixel twice (43_display R211). -/
theorem nodup_spritePlots (vx vy : Byte) (bs : List Byte) : ∀ r : Nat, bs.length ≤ 32 →
    ((spritePlots vx vy r bs).map fun e => (e.1, e.2.1)).Nodup := by
  induction bs with
  | nil => intro r _; exact List.nodup_nil
  | cons b bs ih =>
    intro r hl
    simp only [List.length_cons] at hl
    rw [spritePlots, List.map_append, List.nodup_append]
    refine ⟨?_, ih (r + 1) (by omega), ?_⟩
    · rw [List.map_map]
      refine List.Nodup.map_on ?_ (by decide)
      intro c hc c' hc' h
      simp only [Function.comp_apply, Prod.mk.injEq, pixelX, Fin.mk.injEq] at h
      rw [mem_spriteCols] at hc hc'
      omega
    · intro p hp q hq hpq
      subst hpq
      rw [List.map_map, List.mem_map] at hp
      obtain ⟨c, -, rfl⟩ := hp
      obtain ⟨e, he, h⟩ := List.mem_map.1 hq
      obtain ⟨k, c', hk, -, rfl⟩ := (mem_spritePlots vx vy bs e (r + 1)).1 he
      simp only [Function.comp_apply, Prod.mk.injEq, pixelY, Fin.mk.injEq] at h
      omega

/-- The bit that the rows `bs` hold for a pixel, counted from (vx, vy) around the edges. -/
def rowsBit (vx vy : Byte) (bs : List Byte) (px : Fin 64) (py : Fin 32) : Bool :=
  let c := (px.val + 64 - vx.toNat % 64) % 64
  let r := (py.val + 32 - vy.toNat % 32) % 32
  decide (c < 8) && decide (r < bs.length) && (bs.getD r 0).getLsbD (7 - c)

theorem any_spritePlots (vx vy : Byte) (bs : List Byte) (hl : bs.length ≤ 32) (px : Fin 64) (py : Fin 32) :
    ((spritePlots vx vy 0 bs).any fun e => e.1 == px && e.2.1 == py && e.2.2) = rowsBit vx vy bs px py := by
  rw [Bool.eq_iff_iff, List.any_eq_true]
  simp only [mem_spritePlots, Bool.and_eq_true, beq_iff_eq, rowsBit, decide_eq_true_eq]
  have hpx := px.isLt
  have hpy := py.isLt
  constructor
  · rintro ⟨e, ⟨k, col, hk, hc, rfl⟩, ⟨h1, h2⟩, h3⟩
    simp only [pixelX, pixelY, Fin.ext_iff] at h1 h2
    have e1 : (px.val + 64 - vx.toNat % 64) % 64 = col := by omega
    have e2 : (py.val + 32 - vy.toNat % 32) % 32 = k := by omega
    rw [e1, e2]
    exact ⟨⟨hc, hk⟩, h3⟩
  · rintro ⟨⟨h1, h2⟩, h3⟩
    refine ⟨_, ⟨_, _, h2, h1, rfl⟩, ⟨?_, ?_⟩, h3⟩
    · simp only [pixelX, Fin.ext_iff]
      omega
    · simp only [pixelY, Fin.ext_iff]
      omega

/-- Everything drawing a sprite can do: it XORs each pixel with the sprite's bit for it. -/
theorem get_drawRows (vx vy : Byte) (bs : List Byte) (hl : bs.length ≤ 32) (d : Display) (c : Bool) (px : Fin 64)
    (py : Fin 32) :
    Display.get (drawRows vx vy 0 bs (d, c)).1 px py = (Display.get d px py ^^ rowsBit vx vy bs px py) := by
  rw [drawRows_eq_foldl, (foldl_plot _ (nodup_spritePlots vx vy bs 0 hl) d c).1, any_spritePlots vx vy bs hl]

/-- Drawing a sprite collides exactly when one of its 1 bits falls on a pixel that was on. -/
theorem collision_drawRows (vx vy : Byte) (bs : List Byte) (hl : bs.length ≤ 32) (d : Display) :
    (drawRows vx vy 0 bs (d, false)).2 = true ↔
      ∃ px py, Display.get d px py = true ∧ rowsBit vx vy bs px py = true := by
  rw [drawRows_eq_foldl, (foldl_plot _ (nodup_spritePlots vx vy bs 0 hl) d false).2, Bool.false_or, List.any_eq_true]
  constructor
  · rintro ⟨e, he, h⟩
    rw [Bool.and_eq_true] at h
    refine ⟨e.1, e.2.1, h.2, ?_⟩
    rw [← any_spritePlots vx vy bs hl, List.any_eq_true]
    exact ⟨e, he, by simp [h.1]⟩
  · rintro ⟨px, py, h1, h2⟩
    rw [← any_spritePlots vx vy bs hl, List.any_eq_true] at h2
    obtain ⟨e, he, h⟩ := h2
    simp only [Bool.and_eq_true, beq_iff_eq] at h
    refine ⟨e, he, ?_⟩
    rw [h.1.1, h.1.2, h1, h.2]
    rfl

end Sys2Proof.Machine
end

