-- ==== Sys2Proof/Laws/PerInstr.lean ====
section
/-! SUPPORT. Families of statements about every instruction as a term of Instr, one lemma per constructor. -/

namespace Sys2Proof.Laws.Row

/-- The word of a well-formed instruction matches the instruction's own row of 30_encoding R75. -/
def Statement (i : Instr) : Prop := i.wf = true → i.rowMatches (encode i) = true

/-- A word whose masked bits are the match, of a row that leaves no word out. -/
theorem of_and {i : Instr} (h : encode i &&& i.rowMask = i.rowMatch) (he : i.rowExcludes = []) : Statement i :=
  fun _ => by simp only [Instr.rowMatches, h, he, beq_self_eq_true, List.contains_nil, Bool.not_false, Bool.and_self]

theorem ret : Statement .ret := fun _ => by decide

theorem cls : Statement .cls := fun _ => by decide

theorem sys (nnn : Addr12) : Statement (.sys nnn) := by
  intro h
  have e : ∀ v : Addr12, encNNN 0 nnn = encNNN 0 v → nnn = v := fun v hv => by
    simpa using congrArg fieldNNN hv
  simp only [Instr.wf, Bool.and_eq_true, bne_iff_ne, ne_eq] at h
  have h1 : encode (.sys nnn) ≠ 0x00E0 := fun hv => h.1 (e 0x0E0 hv)
  have h2 : encode (.sys nnn) ≠ 0x00EE := fun hv => h.2 (e 0x0EE hv)
  have h3 : encode (.sys nnn) &&& 0xF000 = 0x0000 := encNNN_and_F000 0 nnn
  have h4 : (Instr.sys nnn).rowExcludes = [0x00E0, 0x00EE] := rfl
  have h5 : encode (.sys nnn) &&& (Instr.sys nnn).rowMask = (Instr.sys nnn).rowMatch := h3
  simp only [Instr.rowMatches, h4, h5, beq_self_eq_true, Bool.true_and, Bool.not_eq_true', List.contains_eq_mem,
    List.mem_cons, List.not_mem_nil, or_false, decide_eq_false_iff_not, not_or]
  exact ⟨h1, h2⟩

theorem jp (nnn : Addr12) : Statement (.jp nnn) := of_and (encNNN_and_F000 1 nnn) rfl

theorem call (nnn : Addr12) : Statement (.call nnn) := of_and (encNNN_and_F000 2 nnn) rfl

theorem seImm (x : Reg) (nn : Byte) : Statement (.seImm x nn) := of_and (encXNN_and_F000 3 x nn) rfl

theorem sneImm (x : Reg) (nn : Byte) : Statement (.sneImm x nn) := of_and (encXNN_and_F000 4 x nn) rfl

theorem seReg (x : Reg) (y : Reg) (z : Nibble) : Statement (.seReg x y z) := of_and (encXYN_and_F000 5 x y z) rfl

theorem ldImm (x : Reg) (nn : Byte) : Statement (.ldImm x nn) := of_and (encXNN_and_F000 6 x nn) rfl

theorem addImm (x : Reg) (nn : Byte) : Statement (.addImm x nn) := of_and (encXNN_and_F000 7 x nn) rfl

theorem ldReg (x : Reg) (y : Reg) : Statement (.ldReg x y) := of_and (encXYN_and_F00F 8 x y 0) rfl

theorem orReg (x : Reg) (y : Reg) : Statement (.orReg x y) := of_and (encXYN_and_F00F 8 x y 1) rfl

theorem andReg (x : Reg) (y : Reg) : Statement (.andReg x y) := of_and (encXYN_and_F00F 8 x y 2) rfl

theorem xorReg (x : Reg) (y : Reg) : Statement (.xorReg x y) := of_and (encXYN_and_F00F 8 x y 3) rfl

theorem addReg (x : Reg) (y : Reg) : Statement (.addReg x y) := of_and (encXYN_and_F00F 8 x y 4) rfl

theorem subReg (x : Reg) (y : Reg) : Statement (.subReg x y) := of_and (encXYN_and_F00F 8 x y 5) rfl

theorem shr (x : Reg) (y : Reg) : Statement (.shr x y) := of_and (encXYN_and_F00F 8 x y 6) rfl

theorem subnReg (x : Reg) (y : Reg) : Statement (.subnReg x y) := of_and (encXYN_and_F00F 8 x y 7) rfl

theorem shl (x : Reg) (y : Reg) : Statement (.shl x y) := of_and (encXYN_and_F00F 8 x y 14) rfl

theorem sneReg (x : Reg) (y : Reg) (z : Nibble) : Statement (.sneReg x y z) := of_and (encXYN_and_F000 9 x y z) rfl

theorem ldI (nnn : Addr12) : Statement (.ldI nnn) := of_and (encNNN_and_F000 10 nnn) rfl

theorem jpV0 (nnn : Addr12) : Statement (.jpV0 nnn) := of_and (encNNN_and_F000 11 nnn) rfl

theorem rnd (x : Reg) (nn : Byte) : Statement (.rnd x nn) := of_and (encXNN_and_F000 12 x nn) rfl

theorem drw (x : Reg) (y : Reg) (n : Nibble) : Statement (.drw x y n) := of_and (encXYN_and_F000 13 x y n) rfl

theorem skp (x : Reg) : Statement (.skp x) := of_and (encXNN_and_F0FF 14 x 0x9E) rfl

theorem sknp (x : Reg) : Statement (.sknp x) := of_and (encXNN_and_F0FF 14 x 0xA1) rfl

theorem ldVxDT (x : Reg) : Statement (.ldVxDT x) := of_and (encXNN_and_F0FF 15 x 0x7) rfl

theorem ldVxK (x : Reg) : Statement (.ldVxK x) := of_and (encXNN_and_F0FF 15 x 0xA) rfl

theorem ldDTVx (x : Reg) : Statement (.ldDTVx x) := of_and (encXNN_and_F0FF 15 x 0x15) rfl

theorem ldSTVx (x : Reg) : Statement (.ldSTVx x) := of_and (encXNN_and_F0FF 15 x 0x18) rfl

theorem addI (x : Reg) : Statement (.addI x) := of_and (encXNN_and_F0FF 15 x 0x1E) rfl

theorem ldF (x : Reg) : Statement (.ldF x) := of_and (encXNN_and_F0FF 15 x 0x29) rfl

theorem ldB (x : Reg) : Statement (.ldB x) := of_and (encXNN_and_F0FF 15 x 0x33) rfl

theorem ldMemVx (x : Reg) : Statement (.ldMemVx x) := of_and (encXNN_and_F0FF 15 x 0x55) rfl

theorem ldVxMem (x : Reg) : Statement (.ldVxMem x) := of_and (encXNN_and_F0FF 15 x 0x65) rfl

end Sys2Proof.Laws.Row
end

