-- ==== Sys2Proof/Tests/Slice0.lean ====
section
/-! SUPPORT. The model's own tests: expected values from spec/95_test_vectors (its vector's name stands in the comment) or
worked by hand from the rules, and a witness for the hypotheses of each statement. -/

namespace Sys2Proof.Tests

open Sys2Proof.Machine

/-! Helpers: the next state of an answer, and states that differ from reset in what a test names. -/

def nextOf : Result → Option State
  | .next s => some s
  | .fault _ => none
  | .refused _ => none

/-- Reset, with some registers set. -/
def withRegs (l : List (Reg × Byte)) : State := l.foldl (fun s p => s.setV p.1 p.2) State.reset

/-- A state with one return address on the stack. -/
def oneReturn (s : State) (a : Word) : State := { s with sp := 0, stack := a :: List.replicate 15 0 }

/-- A state with a full stack. -/
def fullStack (s : State) : State := { s with sp := 15, stack := List.replicate 16 0x202 }

/-- A state whose next transactions are these. -/
def issuing (s : State) (l : List Transaction) : State := { s with pending := l }

/-- What most tests look at: two registers, I and pc. -/
def look (x y : Reg) (r : Result) : Option (Byte × Byte × Word × Word) :=
  (nextOf r).map fun t => (t.getV x, t.getV y, t.i, t.pc)

/-- What a transaction returned. -/
def reportOf (r : Result) : Option Report := (nextOf r).map State.report

/-- Whether pixels are on. -/
def pixelsOf (r : Result) (l : List (Fin 64 × Fin 32)) : Option (List Bool) :=
  (nextOf r).map fun t => l.map fun p => t.pixel p.1 p.2

/-- Bytes of memory. -/
def bytesOf (r : Result) (l : List Nat) : Option (List Byte) := (nextOf r).map fun t => l.map t.peek

/-! Well-formedness: the one check refuses its two ill-formed terms. -/

theorem test_wf_refuses_sys_0E0 : (Instr.sys 0x0E0).wf = false := by decide
theorem test_wf_refuses_sys_0EE : (Instr.sys 0x0EE).wf = false := by decide
theorem test_wf_accepts_neighbours : (Instr.sys 0x0E1).wf = true ∧ (Instr.sys 0x0EF).wf = true := by decide

/-! Decoding: each constructor's word, written out from 30_encoding R73 and R75. -/

theorem test_decode_family_0 :
    decodeWord 0x00EE = .ok .ret ∧ decodeWord 0x00E0 = .ok .cls ∧ decodeWord 0x0000 = .ok (.sys 0x000) ∧
    decodeWord 0x00E1 = .ok (.sys 0x0E1) ∧ decodeWord 0x0FFF = .ok (.sys 0xFFF) := by decide

theorem test_decode_control :
    decodeWord 0x1250 = .ok (.jp 0x250) ∧ decodeWord 0x2ABC = .ok (.call 0xABC) ∧
    decodeWord 0x3A42 = .ok (.seImm 10 0x42) ∧ decodeWord 0x4342 = .ok (.sneImm 3 0x42) ∧
    decodeWord 0x5123 = .ok (.seReg 1 2 3) ∧ decodeWord 0x9EF0 = .ok (.sneReg 14 15 0) ∧
    decodeWord 0xBF02 = .ok (.jpV0 0xF02) := by decide

theorem test_decode_alu :
    decodeWord 0x6A3C = .ok (.ldImm 10 0x3C) ∧ decodeWord 0x71FF = .ok (.addImm 1 0xFF) ∧
    decodeWord 0x8120 = .ok (.ldReg 1 2) ∧ decodeWord 0x8121 = .ok (.orReg 1 2) ∧
    decodeWord 0x8122 = .ok (.andReg 1 2) ∧ decodeWord 0x8123 = .ok (.xorReg 1 2) ∧
    decodeWord 0x8124 = .ok (.addReg 1 2) ∧ decodeWord 0x8125 = .ok (.subReg 1 2) ∧
    decodeWord 0x8126 = .ok (.shr 1 2) ∧ decodeWord 0x8127 = .ok (.subnReg 1 2) ∧
    decodeWord 0x812E = .ok (.shl 1 2) ∧ decodeWord 0xC30F = .ok (.rnd 3 0x0F) := by decide

theorem test_decode_memory_and_display :
    decodeWord 0xA300 = .ok (.ldI 0x300) ∧ decodeWord 0xD125 = .ok (.drw 1 2 5) ∧
    decodeWord 0xF21E = .ok (.addI 2) ∧ decodeWord 0xF229 = .ok (.ldF 2) ∧ decodeWord 0xF033 = .ok (.ldB 0) ∧
    decodeWord 0xF355 = .ok (.ldMemVx 3) ∧ decodeWord 0xFF65 = .ok (.ldVxMem 15) := by decide

theorem test_decode_timer_and_keys :
    decodeWord 0xE59E = .ok (.skp 5) ∧ decodeWord 0xE5A1 = .ok (.sknp 5) ∧ decodeWord 0xF307 = .ok (.ldVxDT 3) ∧
    decodeWord 0xF10A = .ok (.ldVxK 1) ∧ decodeWord 0xFA15 = .ok (.ldDTVx 10) ∧
    decodeWord 0xF118 = .ok (.ldSTVx 1) := by decide

/-- UK1 to UK7, DC1. -/
theorem test_decode_unknown :
    decodeWord 0x8008 = .error (.unknownOpcode 0x8008) ∧ decodeWord 0x800F = .error (.unknownOpcode 0x800F) ∧
    decodeWord 0xE000 = .error (.unknownOpcode 0xE000) ∧ decodeWord 0xE1A2 = .error (.unknownOpcode 0xE1A2) ∧
    decodeWord 0xF000 = .error (.unknownOpcode 0xF000) ∧ decodeWord 0xFF66 = .error (.unknownOpcode 0xFF66) ∧
    decodeWord 0xF00B = .error (.unknownOpcode 0xF00B) ∧ decode [0x12] = .error .truncated := by decide

theorem test_encode : encode (.drw 1 2 5) = 0xD125 ∧ encode (.shl 1 2) = 0x812E ∧ encode (.ldVxMem 15) = 0xFF65 ∧
    encode (.sneReg 14 15 3) = 0x9EF3 ∧ encode (.jpV0 0xF02) = 0xBF02 := by decide

theorem test_table_word : decodeTableWord 16 0xD015 = some (.drw 0 1 5) ∧ decodeTableWord 16 0x8008 = none := by decide

/-! Control flow. -/

/-- CF1. -/
theorem test_ret : (nextOf (exec .ret (oneReturn State.reset 0x206))).map (fun t => (t.pc, t.sp)) = some (0x206, -1) := by
  decide
/-- CF3. -/
theorem test_ret_out_of_range :
    (nextOf (exec .ret (oneReturn State.reset 0x1000))).map (fun t => (t.status, t.sp)) =
      some (.halted .pcOutOfRange, 0) := by decide
/-- CF4. -/
theorem test_sys : look 0 15 (exec (.sys 0x123) State.reset) = some (0, 0, 0, 0x202) := by decide
/-- CF5. -/
theorem test_sys_at_end : reportOf (exec (.sys 0) (State.reset.atPc 0xFFE)) = some (.fatal .pcOutOfRange) := by decide
/-- CF6. -/
theorem test_jp : look 0 15 (exec (.jp 0x250) State.reset) = some (0, 0, 0, 0x250) := by decide
/-- CF7. -/
theorem test_jp_odd : reportOf (exec (.jp 0x251) State.reset) = some (.fatal .pcMisaligned) := by decide
/-- CF13. -/
theorem test_call_at_end :
    (nextOf (exec (.call 0x400) (State.reset.atPc 0xFFE))).map (fun t => (t.pc, t.sp, t.slot 0)) =
      some (0x400, 0, 0x1000) := by decide
/-- CF11. -/
theorem test_call_full_before_odd : reportOf (exec (.call 0x211) (fullStack State.reset)) = some (.fatal .stackOverflow) := by
  decide
/-- CF14, CF15. -/
theorem test_seImm : look 3 15 (exec (.seImm 3 0x42) (withRegs [(3, 0x42)])) = some (0x42, 0, 0, 0x204) ∧
    look 3 15 (exec (.seImm 3 0x42) (withRegs [(3, 0x41)])) = some (0x41, 0, 0, 0x202) := by decide
/-- CF20, CF21. -/
theorem test_sneImm : look 3 15 (exec (.sneImm 3 0x42) (withRegs [(3, 0x41)])) = some (0x41, 0, 0, 0x204) ∧
    look 3 15 (exec (.sneImm 3 0x42) (withRegs [(3, 0x42)])) = some (0x42, 0, 0, 0x202) := by decide
/-- CF22, CF23. -/
theorem test_seReg : look 1 2 (exec (.seReg 1 2 0) (withRegs [(1, 7), (2, 7)])) = some (7, 7, 0, 0x204) ∧
    look 1 2 (exec (.seReg 1 2 0) (withRegs [(1, 7), (2, 8)])) = some (7, 8, 0, 0x202) := by decide
/-- CF25, CF27. -/
theorem test_sneReg : look 1 2 (exec (.sneReg 1 2 0) (withRegs [(1, 7), (2, 8)])) = some (7, 8, 0, 0x204) ∧
    look 1 2 (exec (.sneReg 1 2 15) (withRegs [(1, 7), (2, 7)])) = some (7, 7, 0, 0x202) := by decide
/-- CF28. -/
theorem test_jpV0 : look 0 15 (exec (.jpV0 0x300) (withRegs [(0, 4)])) = some (4, 0, 0, 0x304) := by decide
/-- CF30, CF31. -/
theorem test_jpV0_range_first : reportOf (exec (.jpV0 0xF02) (withRegs [(0, 0xFF)])) = some (.fatal .pcOutOfRange) ∧
    reportOf (exec (.jpV0 0xF01) (withRegs [(0, 0xFF)])) = some (.fatal .pcOutOfRange) := by decide

/-! Registers and ALU. -/

/-- AL2. -/
theorem test_ldImm : look 15 0 (exec (.ldImm 15 1) State.reset) = some (1, 0, 0, 0x202) := by decide
/-- AL3, AL5. -/
theorem test_addImm : look 1 15 (exec (.addImm 1 2) (withRegs [(1, 0xFF)])) = some (1, 0, 0, 0x202) ∧
    look 15 0 (exec (.addImm 15 1) (withRegs [(15, 0xFF)])) = some (0, 0, 0, 0x202) := by decide
/-- AL6. -/
theorem test_ldReg : look 1 2 (exec (.ldReg 1 2) (withRegs [(2, 0x9C)])) = some (0x9C, 0x9C, 0, 0x202) := by decide
/-- AL7. -/
theorem test_orReg : look 1 15 (exec (.orReg 1 2) (withRegs [(1, 0xF0), (2, 0x0C), (15, 1)])) =
    some (0xFC, 1, 0, 0x202) := by decide
/-- AL8. -/
theorem test_andReg : look 1 2 (exec (.andReg 1 2) (withRegs [(1, 0xF0), (2, 0x3C)])) =
    some (0x30, 0x3C, 0, 0x202) := by decide
/-- AL9, AL10. -/
theorem test_xorReg : look 1 2 (exec (.xorReg 1 2) (withRegs [(1, 0xF0), (2, 0x3C)])) =
    some (0xCC, 0x3C, 0, 0x202) ∧ look 1 15 (exec (.xorReg 1 1) (withRegs [(1, 0xA5)])) = some (0, 0, 0, 0x202) := by
  decide
/-- AL11, AL12. -/
theorem test_addReg : look 1 15 (exec (.addReg 1 2) (withRegs [(1, 0xFF), (2, 2)])) = some (1, 1, 0, 0x202) ∧
    look 1 15 (exec (.addReg 1 2) (withRegs [(1, 0x10), (2, 0x20), (15, 1)])) = some (0x30, 0, 0, 0x202) := by decide
/-- AL17, AL18. -/
theorem test_addReg_vf : look 15 1 (exec (.addReg 15 1) (withRegs [(15, 0xFF), (1, 2)])) = some (1, 2, 0, 0x202) ∧
    look 1 15 (exec (.addReg 1 15) (withRegs [(1, 0x10), (15, 1)])) = some (0x11, 0, 0, 0x202) := by decide
/-- AL19, AL20. -/
theorem test_subReg : look 1 15 (exec (.subReg 1 2) (withRegs [(1, 5), (2, 7)])) = some (0, 1, 0, 0x202) ∧
    look 1 15 (exec (.subReg 1 2) (withRegs [(1, 7), (2, 5)])) = some (2, 0, 0, 0x202) := by decide
/-- AL21, AL25. -/
theorem test_subReg_equal_and_vf : look 1 15 (exec (.subReg 1 2) (withRegs [(1, 7), (2, 7), (15, 1)])) =
    some (0, 0, 0, 0x202) ∧ look 15 1 (exec (.subReg 15 1) (withRegs [(15, 3), (1, 5)])) = some (1, 5, 0, 0x202) := by
  decide
/-- AL29, AL30. -/
theorem test_shr : look 1 15 (exec (.shr 1 14) (withRegs [(1, 0x80), (14, 3)])) = some (0x40, 0, 0, 0x202) ∧
    look 15 0 (exec (.shr 15 0) (withRegs [(15, 3)])) = some (1, 0, 0, 0x202) := by decide
/-- AL31, AL32. -/
theorem test_subnReg : look 1 15 (exec (.subnReg 1 2) (withRegs [(1, 5), (2, 7)])) = some (2, 1, 0, 0x202) ∧
    look 1 15 (exec (.subnReg 1 2) (withRegs [(1, 7), (2, 5)])) = some (0xFE, 0, 0, 0x202) := by decide
/-- AL33, AL35. -/
theorem test_subnReg_equal_and_vf : look 1 15 (exec (.subnReg 1 2) (withRegs [(1, 7), (2, 7)])) =
    some (0, 0, 0, 0x202) ∧ look 15 2 (exec (.subnReg 15 2) (withRegs [(15, 1), (2, 5)])) = some (1, 5, 0, 0x202) := by
  decide
/-- AL36, AL39. -/
theorem test_shl : look 1 15 (exec (.shl 1 0) (withRegs [(1, 0x81)])) = some (2, 1, 0, 0x202) ∧
    look 15 0 (exec (.shl 15 0) (withRegs [(15, 0x81)])) = some (1, 0, 0, 0x202) := by decide
/-- AL40. -/
theorem test_rnd : look 3 15 (exec (.rnd 3 0x0F) (issuing State.reset [.step 0 0xB7])) = some (7, 0, 0, 0x202) := by
  decide
/-- AL43. -/
theorem test_alu_at_end : reportOf (exec (.ldImm 0 0) (State.reset.atPc 0xFFE)) = some (.fatal .pcOutOfRange) := by decide

/-! Address register and memory. -/

/-- MA2. -/
theorem test_ldI : look 0 15 (exec (.ldI 0xFFF) (State.reset.setI 0x1234)) = some (0, 0, 0xFFF, 0x202) := by decide
/-- MA3, MA4. -/
theorem test_addI : look 2 15 (exec (.addI 2) ((withRegs [(2, 5)]).setI 0xFFE)) = some (5, 0, 0x1003, 0x202) ∧
    look 2 15 (exec (.addI 2) ((withRegs [(2, 1)]).setI 0xFFFF)) = some (1, 0, 0, 0x202) := by decide
/-- MA6. -/
theorem test_ldF : look 2 15 (exec (.ldF 2) (withRegs [(2, 0xF)])) = some (0xF, 0, 0x4B, 0x202) := by decide
/-- MA7. -/
theorem test_ldF_invalid : reportOf (exec (.ldF 2) (withRegs [(2, 0x10)])) = some (.fatal .invalidFontIndex) := by decide
/-- MA8, MA11. -/
theorem test_ldB : bytesOf (exec (.ldB 0) ((withRegs [(0, 156)]).setI 0x300)) [0x300, 0x301, 0x302] = some [1, 5, 6] ∧
    bytesOf (exec (.ldB 0) ((withRegs [(0, 7)]).setI 0xFFD)) [0xFFD, 0xFFE, 0xFFF] = some [0, 0, 7] := by decide
/-- MA12. -/
theorem test_ldB_bounds : reportOf (exec (.ldB 0) ((withRegs [(0, 7)]).setI 0xFFE)) = some (.fatal .memoryOutOfBounds) := by
  decide
/-- MA13. -/
theorem test_ldMemVx : bytesOf (exec (.ldMemVx 2) ((withRegs [(0, 0x11), (1, 0x22), (2, 0x33), (3, 0x44)]).setI 0x400))
    [0x3FF, 0x400, 0x401, 0x402, 0x403] = some [0, 0x11, 0x22, 0x33, 0] := by decide
/-- MA15. -/
theorem test_ldMemVx_bounds :
    (nextOf (exec (.ldMemVx 1) ((withRegs [(0, 0xAB), (1, 0xCD)]).setI 0xFFF))).map (fun t => (t.report, t.peek 0xFFF)) =
      some (.fatal .memoryOutOfBounds, 0) := by decide
/-- MA16. -/
theorem test_ldVxMem : (nextOf (exec (.ldVxMem 2)
    ((State.reset.pokeBytes 0x300 [1, 5, 6, 7]).setI 0x300))).map (fun t => (t.getV 0, t.getV 1, t.getV 2, t.getV 3)) =
      some (1, 5, 6, 0) := by decide
/-- MA20, the default font. -/
theorem test_ldVxMem_font : look 0 15 (exec (.ldVxMem 0) State.reset) = some (0xF0, 0, 0, 0x202) := by decide

/-! Display. -/

/-- DS1. -/
theorem test_cls : pixelsOf (exec .cls (State.reset.setDisp (Display.set Display.blank 63 31 true))) [(63, 31), (0, 0)] =
    some [false, false] ∧ reportOf (exec .cls State.reset) = some (.outcome .displayDirty) := by decide
/-- DS3. -/
theorem test_drw_wraps :
    pixelsOf (exec (.drw 0 1 2) (((withRegs [(0, 60), (1, 31)]).pokeBytes 0x20E [0xFF, 0x81]).setI 0x20E))
      [(60, 31), (63, 31), (0, 31), (3, 31), (4, 31), (60, 0), (61, 0), (3, 0)] =
      some [true, true, true, true, false, true, false, true] := by decide
/-- DS4. -/
theorem test_drw_collides :
    (nextOf (exec (.drw 0 1 1)
      (((State.reset.poke 0x300 0xC0).setI 0x300).setDisp (Display.set Display.blank 0 0 true)))).map
      (fun t => (t.pixel 0 0, t.pixel 1 0, t.getV 15)) = some (false, true, 1) := by decide

/-! Timers and keys. -/

/-- TI1, TI2. -/
theorem test_skp : look 5 15 (exec (.skp 5) (issuing (withRegs [(5, 0xA)]) [.step 0x0400 0])) = some (0xA, 0, 0, 0x204) ∧
    look 5 15 (exec (.skp 5) (issuing (withRegs [(5, 0xA)]) [.step 0xFBFF 0])) = some (0xA, 0, 0, 0x202) := by decide
/-- TI6. -/
theorem test_skp_key_before_pc : reportOf (exec (.skp 5) ((withRegs [(5, 0x10)]).atPc 0xFFE)) =
    some (.fatal .invalidKeyIndex) := by decide
/-- TI3, TI4. -/
theorem test_sknp : look 5 15 (exec (.sknp 5) (issuing (withRegs [(5, 0xA)]) [.step 0 0])) = some (0xA, 0, 0, 0x204) ∧
    look 5 15 (exec (.sknp 5) (issuing (withRegs [(5, 0xA)]) [.step 0x0400 0])) = some (0xA, 0, 0, 0x202) := by decide
/-- TI7. -/
theorem test_ldVxDT : look 3 15 (exec (.ldVxDT 3) (State.reset.setDT 0x2A)) = some (0x2A, 0, 0, 0x202) := by decide
/-- TI8. -/
theorem test_ldDTVx : (nextOf (exec (.ldDTVx 10) (withRegs [(10, 0x3C)]))).map (fun t => (t.dt, t.st)) = some (0x3C, 0) := by
  decide
/-- TI9. -/
theorem test_ldSTVx : (nextOf (exec (.ldSTVx 1) (withRegs [(1, 5)]))).map (fun t => (t.dt, t.st)) = some (0, 5) := by decide
/-- TI10. -/
theorem test_ldVxK : look 1 15 (exec (.ldVxK 1) (issuing State.reset [.step 0x0880 0])) = some (7, 0, 0, 0x202) := by decide
/-- TI14. -/
theorem test_ldVxK_blocked : reportOf (exec (.ldVxK 1) (issuing (State.reset.atPc 0xFFE) [.step 0 0])) =
    some (.outcome .keyWaitBlocked) := by decide

/-! Transactions. -/

/-- A fetched word runs: AL1 from reset. -/
theorem test_step_runs_word : look 10 15 (step (State.reset.withFetchWord 16 0x6A3C)) = some (0x3C, 0, 0, 0x202) := by decide
/-- UK1. -/
theorem test_step_unknown : (nextOf (step (State.reset.withFetchWord 16 0x8008))).map (fun t => (t.report, t.pc)) =
    some (.outcome .unknown, 0x200) := by decide
/-- TK1, TK2. -/
theorem test_tick : (nextOf (step (issuing (State.reset.setDT 2) [.tick]))).map (fun t => (t.dt, t.st)) = some (1, 0) ∧
    (nextOf (step (issuing (State.reset.setST 1) [.tick]))).map (fun t => (t.dt, t.st)) = some (0, 0) := by decide
/-- UK9, UK10. -/
theorem test_skipUnknown :
    (nextOf (step (issuing (State.reset.returns .unknown) [.skipUnknown]))).map (fun t => (t.pc, t.status)) =
      some (0x202, .running) ∧
    (nextOf (step (issuing ((State.reset.atPc 0xFFE).returns .unknown) [.skipUnknown]))).map (fun t => (t.pc, t.status)) =
      some (0xFFE, .halted .pcOutOfRange) := by decide
/-- R263: a Halted state has no Step. -/
theorem test_halted_sticks : (match step (State.reset.halt .stackOverflow) with
    | .fault f => some f | .next _ => none | .refused _ => none) = some (.sessionHalted .stackOverflow) := by decide
/-- RS4: the word of a one-byte ROM. -/
theorem test_create_one_byte : (match State.create Config.standard [0x12] with
    | .ok t => (t.fetch.toOption, t.pc) | .error _ => (none, 0)) = (some 0x1200, 0x200) := by decide

/-! Witnesses: for each statement with hypotheses, a state and operands that meet them all. -/

theorem witness_decodeInvertsEncode : (Instr.sys 0xFFF).wf = true ∧ (Instr.drw 15 0 15).wf = true := by decide
theorem witness_encodeInvertsDecode : decodeWord 0x8AB6 = .ok (.shr 10 11) := by decide
theorem witness_unknownWordsExactly : decodeWord 0x800F = .error (.unknownOpcode 0x800F) ∧
    decodeWord 0xE09F = .error (.unknownOpcode 0xE09F) ∧ decodeWord 0xF0FF = .error (.unknownOpcode 0xF0FF) := by decide
theorem witness_rowsDecideDecoding : decodeWord 0x912F = .ok (.sneReg 1 2 15) ∧
    (Instr.sneReg 0 0 0).rowMatches 0x912F = true := by decide

/-- A state whose next Step runs 6A3C. -/
def loaded : State := State.reset.withFetchWord 16 0x6A3C

theorem witness_stepRunsDecodedInstruction : loaded.Live ∧ loaded.stepIsNext = true ∧ loaded.pc.toNat ≤ 0xFFE ∧
    decode [loaded.peek loaded.pc.toNat, loaded.peek (loaded.pc.toNat + 1)] = .ok (.ldImm 10 0x3C, []) := by decide

/-- A state whose next Step meets an unknown word at the last fetch address. -/
def loadedUnknown : State := (State.reset.atPc 0xFFE).withFetchWord 16 0xFFFF

theorem witness_unknownWordChangesNothing : loadedUnknown.Live ∧ loadedUnknown.stepIsNext = true ∧
    loadedUnknown.fetch = .ok 0xFFFF ∧ decodeWord 0xFFFF = .error (.unknownOpcode 0xFFFF) ∧
    (nextOf (step loadedUnknown)).map State.stepIsNext = some true := by decide
theorem witness_fetchIsBigEndian : (State.reset.atPc 0xFFE).pc.toNat ≤ 0xFFE := by decide
theorem witness_sessionEnds_halted : (State.reset.halt .pcMisaligned).status = .halted .pcMisaligned ∧
    (State.reset.halt .pcMisaligned).destroyed = false ∧
    ∀ rest, (State.reset.halt .pcMisaligned).pending ≠ .destroy :: rest :=
  ⟨rfl, rfl, fun _ h => by cases h⟩
theorem witness_sessionEnds_destroyed : (issuing State.reset [.destroy, .tick]).destroyed = false ∧
    (issuing State.reset [.destroy, .tick]).pending = .destroy :: [.tick] := by decide
theorem witness_tickCountsDown : (issuing State.reset [.tick, .tick]).destroyed = false ∧
    (issuing State.reset [.tick, .tick]).status = .running ∧
    (issuing State.reset [.tick, .tick]).pending = .tick :: [.tick] := by decide
theorem witness_tickCountsDown_halted : (issuing (State.reset.halt .stackOverflow) [.tick]).destroyed = false ∧
    (issuing (State.reset.halt .stackOverflow) [.tick]).status ≠ .running ∧
    (issuing (State.reset.halt .stackOverflow) [.tick]).pending = .tick :: [] := by decide
theorem witness_timersAfterTicks : (issuing (State.reset.setDT 2) [.tick, .tick, .tick]).Live ∧
    (issuing (State.reset.setDT 2) [.tick, .tick, .tick]).pending = List.replicate 3 .tick ++ [] := by decide

/-- A state in which the host may skip an unknown word, and the same at the end of memory. -/
def skipping : State := issuing (State.reset.returns .unknown) [.skipUnknown]
/-- As `skipping`, at the end of memory. -/
def skippingAtEnd : State := issuing ((State.reset.atPc 0xFFE).returns .unknown) [.skipUnknown]

theorem witness_skipUnknown_moves : skipping.Live ∧ skipping.pending = .skipUnknown :: [] ∧
    skipping.cfg.unknownPolicy = .skip ∧ skipping.report = .outcome .unknown ∧ skipping.RoomFor 2 := by decide
theorem witness_skipUnknown_halts : skippingAtEnd.Live ∧ skippingAtEnd.pending = .skipUnknown :: [] ∧
    skippingAtEnd.cfg.unknownPolicy = .skip ∧ skippingAtEnd.report = .outcome .unknown ∧
    0x1000 ≤ skippingAtEnd.pc.toNat + 2 := by decide
theorem witness_skipUnknown_refused : (issuing State.reset [.skipUnknown]).Live ∧
    (issuing State.reset [.skipUnknown]).pending = .skipUnknown :: [] ∧
    (issuing State.reset [.skipUnknown]).report ≠ .outcome .unknown := by decide

/-- A state that waits in FX0A. -/
def waiting : State := issuing (State.reset.withFetchWord 16 0xF10A) [.step 0 0, .tick, .step 0 7]

theorem witness_keyWaitHolds : waiting.Live ∧ waiting.pc.toNat ≤ 0xFFE ∧
    decode [waiting.peek waiting.pc.toNat, waiting.peek (waiting.pc.toNat + 1)] = .ok (.ldVxK 1, []) ∧
    waiting.pending = [.step 0 0, .tick, .step 0 7] ++ [] := by decide
theorem witness_keyWaitHolds_schedule :
    ∀ t ∈ [Transaction.step 0 0, .tick, .step 0 7], t = .tick ∨ ∃ r, t = .step 0 r := by simp
theorem witness_createGivesTheTabulatedState : (List.replicate 3584 (0 : Byte)).length ≤ 3584 := by
  rw [List.length_replicate]
theorem witness_romTooLarge : 3584 < (List.replicate 3585 (0 : Byte)).length ∧
    (List.replicate 3584 (0 : Byte)).length = 3584 := by
  simp only [List.length_replicate]
  decide

/-- A state with the invariant that is not the reset state: one return address, V1 set. -/
def session : State := (oneReturn State.reset 0x206).setV 1 5

theorem witness_inv : session.Inv :=
  { cfg := by decide, pc := by decide, stack := by decide, returns := by decide, status := trivial, mem := by decide }
/-- As `session`, with the return address that leaves memory. -/
theorem witness_inv_atEnd : (oneReturn State.reset 0x1000).Inv :=
  { cfg := by decide, pc := by decide, stack := by decide, returns := by decide, status := trivial, mem := by decide }
/-- As `session`, with an empty stack. -/
theorem witness_inv_empty : (State.reset.setV 1 5).Inv :=
  { cfg := by decide, pc := by decide, stack := by decide, returns := by decide, status := trivial, mem := by decide }

theorem witness_stepKeepsInvariant : session.Inv ∧ ∃ t, step session = .next t :=
  ⟨witness_inv, _, rfl⟩
theorem witness_createEstablishesInvariant : Config.standard.wf = true ∧ ∃ t, State.create Config.standard [0x12] = .ok t :=
  ⟨by decide, _, rfl⟩
theorem witness_liveSessionAlwaysAnswers : session.Live ∧ ∀ rest, session.pending ≠ .skipUnknown :: rest :=
  ⟨by decide, fun _ h => by cases h⟩
theorem witness_fatalErrorCommitsNothing : session.status = .running ∧ ∃ t, exec (.jp 0x251) session = .next t :=
  ⟨rfl, _, rfl⟩
theorem witness_errorsByInstruction : session.Inv ∧
    exec (.jp 0x251) session = .next (session.halt .pcMisaligned) ∧
    (session.halt .pcMisaligned).report = .fatal .pcMisaligned := ⟨witness_inv, rfl, rfl⟩
theorem witness_operandErrors_stack : (State.reset.setV 1 5).sp = -1 ∧
    ((fullStack State.reset).cfg.stackCapacity : Int) ≤ (fullStack State.reset).sp + 1 := by decide
theorem witness_operandErrors_vx : 0xF < ((withRegs [(2, 0x10)]).getV 2).toNat := by decide
theorem witness_operandErrors_memory : 1 ≤ (2#4).toNat ∧
    0xFFF < (State.reset.setI 0xFFF).i.toNat + (2#4).toNat - 1 ∧ 0xFFF < (State.reset.setI 0xFFE).i.toNat + 2 ∧
    0xFFF < (State.reset.setI 0xFFF).i.toNat + (1 : Reg).val := by decide

/-- A state at the last fetch address, with a key and a digit. -/
def atEnd : State := issuing ((withRegs [(5, 3)]).atPc 0xFFE) [.step 0x0008 0]

theorem witness_advancePastMemoryHalts : 0x1000 ≤ atEnd.pc.toNat + 2 ∧ (atEnd.getV 5).toNat ≤ 0xF ∧ atEnd.keys ≠ 0 ∧
    atEnd.i.toNat + (5#4).toNat ≤ 0x1000 ∧ atEnd.i.toNat + 2 ≤ 0xFFF ∧ atEnd.i.toNat + (5 : Reg).val ≤ 0xFFF := by decide
theorem witness_advancePastMemoryHalts_skips : 0x1000 ≤ (State.reset.atPc 0xFFC).pc.toNat +
    (if (State.reset.atPc 0xFFC).getV 0 = 0 then 4 else 2) ∧
    0x1000 ≤ atEnd.pc.toNat + (if atEnd.getV 5 = 3 then 2 else 4) ∧
    0x1000 ≤ atEnd.pc.toNat + (if atEnd.getV 5 = atEnd.getV 5 then 4 else 2) ∧
    0x1000 ≤ atEnd.pc.toNat + (if atEnd.getV 5 = atEnd.getV 5 then 2 else 4) ∧
    0x1000 ≤ atEnd.pc.toNat + (if atEnd.keys.getLsbD (atEnd.getV 5).toNat then 4 else 2) ∧
    0x1000 ≤ atEnd.pc.toNat + (if atEnd.keys.getLsbD (atEnd.getV 5).toNat then 2 else 4) := by decide
theorem witness_onlyCallAndReturnUseTheStack : ∃ t, exec (.call 0x210) session = .next t := ⟨_, rfl⟩
theorem witness_writersOfEachUnit : ∃ t, exec (.ldI 0x210) session = .next t ∧ t.i ≠ session.i := ⟨_, rfl, by decide⟩
theorem witness_tagOfEachInstruction : ∃ t, exec .cls session = .next t ∧ t.report = .outcome .displayDirty := ⟨_, rfl, rfl⟩
theorem witness_tagOfEachInstruction_blocked : ∃ t, exec (.ldVxK 1) waiting = .next t ∧
    t.report = .outcome .keyWaitBlocked := ⟨_, rfl, rfl⟩
theorem witness_onlyKeyAndRandomReadInputs : (∀ x nn, Instr.skp 1 ≠ .rnd x nn) ∧
    ∀ x, Instr.rnd 1 2 ≠ .skp x ∧ Instr.rnd 1 2 ≠ .sknp x ∧ Instr.rnd 1 2 ≠ .ldVxK x :=
  ⟨fun _ _ h => (by cases h), fun _ => ⟨fun h => (by cases h), fun h => (by cases h), fun h => (by cases h)⟩⟩
theorem witness_frameOfRegisterInstructions : (∃ t, exec (.ldImm 1 9) session = .next t) ∧
    (∃ t, exec (.addReg 1 2) session = .next t) ∧ ∃ t, exec (.ldVxMem 3) session = .next t :=
  ⟨⟨_, rfl⟩, ⟨_, rfl⟩, ⟨_, rfl⟩⟩
theorem witness_frameOfControlAndTimerInstructions : (∃ t, exec (.jp 0x210) session = .next t) ∧
    (∃ t, exec .ret session = .next t) ∧ (∃ t, exec (.addI 1) session = .next t) ∧
    (∃ t, exec (.ldDTVx 1) session = .next t) ∧ ∃ t, exec (.ldSTVx 1) session = .next t :=
  ⟨⟨_, rfl⟩, ⟨_, rfl⟩, ⟨_, rfl⟩, ⟨_, rfl⟩, ⟨_, rfl⟩⟩
theorem witness_frameOfStores : (∃ t, exec (.ldB 1) session = .next t) ∧ ∃ t, exec (.ldMemVx 1) session = .next t :=
  ⟨⟨_, rfl⟩, ⟨_, rfl⟩⟩
theorem witness_frameOfDisplayInstructions : (∃ t, exec .cls session = .next t) ∧
    ∃ t, exec (.drw 0 1 1) session = .next t := ⟨⟨_, rfl⟩, ⟨_, rfl⟩⟩
theorem witness_roomFor : session.RoomFor 2 ∧ session.RoomFor 4 ∧ (State.reset.atPc 0xFFC).RoomFor 2 ∧
    (State.reset.atPc 0xFFA).RoomFor 4 := by decide
theorem witness_pcAtEnd : (State.reset.atPc 0xFFE).pc = 0xFFE := by decide
theorem witness_callPushesReturnAddress : (session.atPc 0xFFE).StackOk ∧ (session.atPc 0xFFE).PcOk ∧
    (session.atPc 0xFFE).sp + 1 < (session.atPc 0xFFE).cfg.stackCapacity ∧ (0x210#12).toNat % 2 = 0 ∧
    (0x211#12).toNat % 2 = 1 := by decide
theorem witness_returnPopsTheTop : session.sp ≠ -1 ∧ (session.slot session.sp.toNat).toNat < 0x1000 ∧
    (oneReturn State.reset 0x1000).sp ≠ -1 ∧
    (oneReturn State.reset 0x1000).slot (oneReturn State.reset 0x1000).sp.toNat = 0x1000 ∧
    (State.reset.setV 1 5).sp = -1 := by decide
theorem witness_callThenReturnResumes : session.StackOk ∧ session.RoomFor 2 ∧ (0x210#12).toNat % 2 = 0 ∧
    session.sp + 1 < session.cfg.stackCapacity ∧ (fullStack State.reset).StackOk ∧ (fullStack State.reset).RoomFor 2 ∧
    ((fullStack State.reset).cfg.stackCapacity : Int) ≤ (fullStack State.reset).sp + 1 := by decide
theorem witness_skipOnImmediate : (State.reset.atPc 0xFFC).RoomFor
    (if ((State.reset.atPc 0xFFC).getV 0).toNat = (1#8).toNat then 4 else 2) ∧
    session.RoomFor (if (session.getV 1).toNat = (5#8).toNat then 4 else 2) ∧
    session.RoomFor (if (session.getV 1).toNat = (6#8).toNat then 2 else 4) ∧
    0x1000 ≤ (State.reset.atPc 0xFFC).pc.toNat + (if ((State.reset.atPc 0xFFC).getV 0).toNat = (0#8).toNat then 4 else 2) ∧
    0x1000 ≤ (State.reset.atPc 0xFFC).pc.toNat + (if ((State.reset.atPc 0xFFC).getV 0).toNat = (1#8).toNat then 2 else 4) := by
  decide
theorem witness_skipOnRegisters : session.RoomFor (if (session.getV 1).toNat = (session.getV 2).toNat then 4 else 2) ∧
    session.RoomFor (if (session.getV 1).toNat = (session.getV 2).toNat then 2 else 4) := by decide
theorem witness_randomIsMasked : loaded.RoomFor 2 ∧ loaded.pending = .step 0 0 :: [] := by decide
theorem witness_loadsOfI : session.RoomFor 2 ∧ (session.getV 1).toNat ≤ 0xF ∧ 0xF < ((withRegs [(1, 16)]).getV 1).toNat := by
  decide
theorem witness_bcdStoresThreeDigits : (session.setI 0xFFD).RoomFor 2 ∧ (session.setI 0xFFD).MemOk ∧
    (session.setI 0xFFD).i.toNat + 2 ≤ 0xFFF := by decide
theorem witness_storeRegisters : (session.setI 0xFF0).RoomFor 4 ∧ (session.setI 0xFF0).MemOk ∧
    (session.setI 0xFF0).i.toNat + (15 : Reg).val ≤ 0xFFF := by decide
theorem witness_loadRegisters : (session.setI 0xFFF).RoomFor 2 ∧ (session.setI 0xFFF).i.toNat + (0 : Reg).val ≤ 0xFFF := by
  decide
theorem witness_drawXorsTheSprite : (session.setI 0xFF1).RoomFor 4 ∧
    (session.setI 0xFF1).i.toNat + (15#4).toNat ≤ 0x1000 ∧ (0#4).toNat = 0 := by decide
theorem witness_drawXorsTheSprite_collision : (State.reset.setDisp (Display.set Display.blank 0 0 true)).pixel 0 0 = true ∧
    (State.reset.setDisp (Display.set Display.blank 0 0 true)).spriteBit 0 0 5 0 0 = true := by decide
theorem witness_drawXorsTheSprite_clear : ∀ px py, State.reset.pixel px py = false ∨
    State.reset.spriteBit 0 0 0 px py = false :=
  fun px py => .inl (by simp [State.pixel, State.reset, State.fresh, Display.get, Display.blank])
theorem witness_plotFlipsOnePixel : Display.get Display.blank 63 31 = false ∧
    Display.get (Display.set Display.blank 63 31 true) 63 31 = true := by decide
theorem witness_skipOnKey : waiting.pending = .step 0 0 :: [.tick, .step 0 7] ∧ (waiting.getV 5).toNat ≤ 0xF ∧
    waiting.RoomFor (if (0#16).getLsbD (waiting.getV 5).toNat then 4 else 2) ∧
    waiting.RoomFor (if (0#16).getLsbD (waiting.getV 5).toNat then 2 else 4) := by decide
theorem witness_keyWaitTakesLowestKey : (0x0880#16).getLsbD (7 : KeyCode).val = true ∧
    (∀ j : KeyCode, j < 7 → (0x0880#16).getLsbD j.val = false) ∧
    (issuing State.reset [.step 0x0880 0]).pending = .step 0x0880 0 :: [] ∧
    (issuing State.reset [.step 0x0880 0]).RoomFor 2 := by decide

end Sys2Proof.Tests
end

section
/-! PROOFS. Create (10_state R37): what it answers, and every byte and field of the state it answers. -/

namespace Sys2Proof

/-! What `Create` puts where the ROM does not reach. -/

/-- Row `k` of glyph `d` stands at 5d + k (10_state R36). -/
theorem Config.initialByte_glyph (c : Config) (d : Fin 16) (k : Fin 5) :
    c.initialByte (5 * d.val + k.val) = (c.font[d])[k] := by
  have hlt : 5 * d.val + k.val < 80 := by omega
  have hdiv : (5 * d.val + k.val) / 5 = d.val := by omega
  have hmod : (5 * d.val + k.val) % 5 = k.val := by omega
  simp only [Config.initialByte, hlt, dif_pos, hdiv, hmod, Fin.getElem_fin]

/-- Past the font every byte is zero. -/
theorem Config.initialByte_past_font (c : Config) {a : Nat} (h : 0x50 ≤ a) : c.initialByte a = 0 :=
  dif_neg (Nat.not_lt.2 h)

namespace Machine

/-! The state before the ROM is written, as it is read. -/

@[simp] theorem State.peek_fresh (c : Config) (a : Nat) : (State.fresh c).peek a = c.initialByte a := rfl

@[simp] theorem State.getV_fresh (c : Config) (r : Reg) : (State.fresh c).getV r = 0 :=
  Vector.getElem_replicate _

@[simp] theorem State.slot_fresh (c : Config) (k : Nat) : (State.fresh c).slot k = 0 := by
  rw [State.slot, List.getD_eq_getElem?_getD]
  exact List.getElem?_getD_replicate_default_eq _ _ _

@[simp] theorem State.pixel_fresh (c : Config) (px : Fin 64) (py : Fin 32) :
    (State.fresh c).pixel px py = false :=
  Display.get_blank px py

/-! Create. -/

/-- Create answers a state exactly when the ROM fits into 0x200..0xFFF, and then it has written the ROM there. -/
theorem State.create_eq_ok {c : Config} {rom : List Byte} {t : State} :
    State.create c rom = .ok t ↔ rom.length ≤ 3584 ∧ t = (State.fresh c).pokeBytes 0x200 rom := by
  unfold State.create
  split
  · simp; omega
  · simp only [Except.ok.injEq, eq_comm (b := t)]
    exact ⟨fun h => ⟨by omega, h⟩, fun h => h.2⟩

variable {c : Config} {rom : List Byte} {t : State}

/-- The ROM changes memory only. -/
theorem State.create_frame (h : State.create c rom = .ok t) : t = { State.fresh c with mem := t.mem } := by
  obtain ⟨-, rfl⟩ := State.create_eq_ok.1 h
  exact (State.pokeBytes_frame rom (State.fresh c) 0x200).1

/-- The ROM stands at 0x200. -/
theorem State.peek_create_rom (h : State.create c rom = .ok t) {k : Nat} (hk : k < rom.length) :
    t.peek (0x200 + k) = rom.getD k 0 := by
  obtain ⟨hlen, rfl⟩ := State.create_eq_ok.1 h
  exact (State.pokeBytes_spec rom (State.fresh c) 0x200 (by omega) (State.memOk_fresh c)).2 k hk

/-- Outside the ROM stand the font and zeros. -/
theorem State.peek_create_other (h : State.create c rom = .ok t) {a : Nat}
    (ha : a < 0x200 ∨ 0x200 + rom.length ≤ a) : t.peek a = c.initialByte a := by
  obtain ⟨-, rfl⟩ := State.create_eq_ok.1 h
  exact (State.pokeBytes_frame rom (State.fresh c) 0x200).2 a ha

end Machine

open Machine

/-- Settles O14: Create writes memory only, so every other unit is read off `State.fresh`, and a byte is the ROM's
inside the ROM and `Config.initialByte` outside it. -/
theorem createGivesTheTabulatedState : Obligations.CreateGivesTheTabulatedState := by
  intro c rom hlen
  obtain ⟨t, ht⟩ : ∃ t, State.create c rom = .ok t := ⟨_, State.create_eq_ok.2 ⟨hlen, rfl⟩⟩
  obtain ⟨m, rfl⟩ : ∃ m, t = { State.fresh c with mem := m } := ⟨t.mem, State.create_frame ht⟩
  refine ⟨_, ht, rfl, fun d k => ?font, fun a h1 h2 => ?gap, fun k hk => State.peek_create_rom ht hk,
    fun a h1 _ => ?rest, State.getV_fresh c, rfl, rfl, rfl, List.length_replicate, State.slot_fresh c, rfl, rfl,
    State.pixel_fresh c, rfl⟩
  case font => rw [State.peek_create_other ht (by omega), Config.initialByte_glyph]
  case gap => rw [State.peek_create_other ht (.inl h2), Config.initialByte_past_font c h1]
  case rest => rw [State.peek_create_other ht (.inr h1), Config.initialByte_past_font c (by omega)]

end Sys2Proof
end

section
/-! PROOFS. The call stack (10_state R29): what 2NNN and 00EE do to it; every other instruction leaves it alone. -/

namespace Sys2Proof.Machine

/-- A sequence answers a value exactly when both its parts do. -/
theorem bind_eq_ok {α β : Type} {r : Except EngineError α} {f : α → Except EngineError β} {b : β} :
    r.bind f = .ok b ↔ ∃ a, r = .ok a ∧ f a = .ok b := by
  cases r <;> simp [Except.bind]

/-- `t` is `s` but for what an instruction that does not use the call stack can write: SP and the slots, the
parameters, the host's list, the draw count and `destroyed` are as they were. -/
abbrev State.SameStack (s t : State) : Prop :=
  t = { s with mem := t.mem, v := t.v, i := t.i, pc := t.pc, dt := t.dt, st := t.st, disp := t.disp,
               status := t.status, report := t.report }

/-- A computation that answers only states with the call stack of `s`. -/
abbrev KeepsStack (s : State) (r : Except EngineError State) : Prop := ∀ t, r = .ok t → s.SameStack t

theorem State.SameStack.sp_stack {s t : State} (h : s.SameStack t) : t.sp = s.sp ∧ t.stack = s.stack := by
  rw [h]
  exact ⟨rfl, rfl⟩

variable {s t u : State}

/-- NextPC, and so `advance` and `skip`, moves pc only. -/
theorem keepsStack_nextPC {n : Nat} (h : s.SameStack t) : KeepsStack s (t.nextPC n) := by
  intro u hu
  obtain ⟨-, -, rfl⟩ := State.nextPC_eq_ok.1 hu
  exact congrArg (State.atPc · n) h

theorem keepsStack_error {e : EngineError} : KeepsStack s (.error e) := nofun

theorem keepsStack_bind {α : Type} {r : Except EngineError α} {f : α → Except EngineError State}
    (h : ∀ a, r = .ok a → KeepsStack s (f a)) : KeepsStack s (r.bind f) := by
  intro t ht
  obtain ⟨a, ha, hf⟩ := bind_eq_ok.1 ht
  exact h a ha t hf

theorem keepsStack_ite {p : Prop} [Decidable p] {r r' : Except EngineError State} (h : KeepsStack s r)
    (h' : KeepsStack s r') : KeepsStack s (if p then r else r') := by
  split
  · exact h
  · exact h'

/-- A store writes memory only. -/
theorem keepsStack_writeBytes (s : State) (a : Nat) (bs : List Byte) : KeepsStack s (s.writeBytes a bs) := by
  rw [State.writeBytes_spec]
  refine keepsStack_ite (fun t ht => ?_) keepsStack_error
  cases ht
  rw [(State.pokeBytes_frame bs s a).1]

/-- A key query moves pc only. -/
theorem keepsStack_skipOnKey (s : State) (x : Reg) (b : Bool) : KeepsStack s (s.skipOnKey x b) :=
  keepsStack_ite keepsStack_error (keepsStack_nextPC rfl)

/-- An instruction that completes has the stack its writes left; one that halts has the old one. -/
theorem sameStack_of_complete {g : Tag} {r : Except EngineError State} (h : s.complete g r = .next u)
    (hr : KeepsStack s r) : s.SameStack u := by
  obtain ⟨t, ht, rfl⟩ | ⟨e, -, rfl⟩ := State.complete_eq_next.1 h
  · exact congrArg (State.returns · g) (hr t ht)
  · rfl

/-- Every instruction but 2NNN and 00EE leaves the call stack alone. -/
theorem exec_sameStack {i : Instr} (hcall : ∀ n, i ≠ .call n) (hret : i ≠ .ret) (h : exec i s = .next t) :
    s.SameStack t := by
  cases i with
  | ret => exact absurd rfl hret
  | call n => exact absurd rfl (hcall n)
  | cls | sys | jp | seImm | sneImm | seReg | sneReg | jpV0 | ldI | addI | ldVxDT | ldDTVx | ldSTVx
  | ldImm | addImm | ldReg | orReg | andReg | xorReg | addReg | subReg | shr | subnReg | shl | rnd =>
    exact sameStack_of_complete h (keepsStack_nextPC rfl)
  | skp x => exact sameStack_of_complete h (keepsStack_skipOnKey s x true)
  | sknp x => exact sameStack_of_complete h (keepsStack_skipOnKey s x false)
  | ldF x => exact sameStack_of_complete h (keepsStack_ite keepsStack_error (keepsStack_nextPC rfl))
  | drw x y n => exact sameStack_of_complete h (keepsStack_bind fun rows _ => keepsStack_nextPC rfl)
  | ldB x | ldMemVx x =>
    exact sameStack_of_complete h (keepsStack_bind fun u hu => keepsStack_nextPC (keepsStack_writeBytes s _ _ u hu))
  | ldVxMem x =>
    refine sameStack_of_complete h (keepsStack_bind fun bs _ => keepsStack_nextPC ?_)
    rw [State.setRegs_frame]
  | ldVxK x =>
    change execLdVxK x s = .next t at h
    unfold execLdVxK at h
    split at h
    · exact sameStack_of_complete h (keepsStack_nextPC rfl)
    · cases h
      rfl

/-- 2NNN pushes pc + 2, or it halts and the stack is as it was. -/
theorem exec_call_stack {n : Addr12} (h : exec (.call n) s = .next t) :
    t.sp = s.sp ∧ t.stack = s.stack ∨
      t.sp = s.sp + 1 ∧ t.stack = s.stack.set (s.sp + 1).toNat (BitVec.ofNat 16 (s.pc.toNat + 2)) := by
  obtain ⟨u, hu, rfl⟩ | ⟨e, -, rfl⟩ := State.complete_eq_next.1 h
  · obtain ⟨p, hp, hnext⟩ := bind_eq_ok.1 hu
    obtain ⟨-, rfl⟩ := State.push_eq_ok.1 hp
    obtain ⟨-, -, rfl⟩ := State.nextPC_eq_ok.1 hnext
    exact .inr ⟨rfl, rfl⟩
  · exact .inl ⟨rfl, rfl⟩

/-- 00EE pops and keeps every slot, or it halts and SP is as it was. -/
theorem exec_ret_stack (h : exec .ret s = .next t) : t.stack = s.stack ∧ (t.sp = s.sp ∨ t.sp = s.sp - 1) := by
  obtain ⟨u, hu, rfl⟩ | ⟨e, -, rfl⟩ := State.complete_eq_next.1 h
  · obtain ⟨⟨a, p⟩, hp, hnext⟩ := bind_eq_ok.1 hu
    obtain ⟨-, -, rfl⟩ := State.pop_eq_ok.1 hp
    obtain ⟨-, -, rfl⟩ := State.nextPC_eq_ok.1 hnext
    exact ⟨rfl, .inr rfl⟩
  · exact ⟨rfl, .inl rfl⟩

end Sys2Proof.Machine

namespace Sys2Proof

open Machine

/-- Settles O26: the primitives are as defined, and of the instructions only 2NNN and 00EE reach them. -/
theorem onlyCallAndReturnUseTheStack : Obligations.OnlyCallAndReturnUseTheStack := by
  refine ⟨fun s a => rfl, fun s => rfl, fun i s t h => ?_⟩
  by_cases hcall : ∃ n, i = .call n
  · obtain ⟨n, rfl⟩ := hcall
    exact .inl ⟨n, rfl, exec_call_stack h⟩
  · by_cases hret : i = .ret
    · subst hret
      exact .inr (.inl ⟨rfl, exec_ret_stack h⟩)
    · exact .inr (.inr (exec_sameStack (not_exists.1 hcall) hret h).sp_stack)

end Sys2Proof
end

section
/-! PROOFS. Fetch (20_memory R56): the value of the word that two bytes make. -/

namespace Sys2Proof

/-- The first byte is bits 15..8 of the word, the second bits 7..0. -/
theorem wordOfBytes_toNat (hi lo : Byte) : (wordOfBytes hi lo).toNat = 256 * hi.toNat + lo.toNat := by
  calc (wordOfBytes hi lo).toNat
    _ = hi.toNat <<< 8 ||| lo.toNat := BitVec.toNat_append hi lo
    _ = hi.toNat <<< 8 + lo.toNat := (Nat.shiftLeft_add_eq_or_of_lt lo.isLt hi.toNat).symm
    _ = 256 * hi.toNat + lo.toNat := by rw [Nat.shiftLeft_eq, Nat.mul_comm]

/-- Settles O8: at or below 0xFFE both bytes lie in memory, and Fetch puts them together high byte first. -/
theorem fetchIsBigEndian : Obligations.FetchIsBigEndian :=
  fun s hpc => ⟨_, s.fetch_of_le hpc, wordOfBytes_toNat _ _⟩

end Sys2Proof
end

section
/-! PROOFS. Control flow: how an instruction that advances by 2 ends, and subroutine linkage (40_control_flow R111). -/

namespace Sys2Proof.Machine

variable {s u : State}

/-! Advancing by 2, from the state `u` that the writes of an instruction begun in `s` left. -/

theorem State.complete_advance_of_room (s : State) (g : Tag) (h : u.RoomFor 2) :
    s.complete g u.advance = .next (u.moved 2 g) := by
  rw [State.advance_of_room u h, State.complete_ok, State.moved]

theorem State.complete_advance_outOfRange (s : State) (g : Tag) (h : 0x1000 ≤ u.pc.toNat + 2) :
    s.complete g u.advance = .next (s.halt .pcOutOfRange) := by
  rw [State.advance, State.nextPC_outOfRange u h, State.complete_error]

/-! Push and Pop, each with the side that decides it as a hypothesis. -/

theorem State.push_of_free (a : Word) (h : s.sp + 1 < s.cfg.stackCapacity) :
    s.push a = .ok { s with sp := s.sp + 1, stack := s.stack.set (s.sp + 1).toNat a } :=
  State.push_eq_ok.2 ⟨h, rfl⟩

theorem State.push_of_full (a : Word) (h : s.cfg.stackCapacity ≤ s.sp + 1) : s.push a = .error .stackOverflow :=
  if_pos h

theorem State.pop_of_sp (h : s.sp ≠ -1) : s.pop = .ok (s.slot s.sp.toNat, { s with sp := s.sp - 1 }) :=
  State.pop_eq_ok.2 ⟨h, rfl, rfl⟩

/-- The slot a push writes reads back as the address pushed. -/
theorem State.slot_of_stack_eq_set {k : Nat} {a : Word} (h : u.stack = s.stack.set k a) (hk : k < s.stack.length) :
    u.slot k = a := by
  rw [State.slot, h, List.getD_eq_getElem?_getD, List.getElem?_set_self hk, Option.getD_some]

/-! 2NNN and 00EE. -/

/-- 2NNN on a full stack (60_exceptions R268: the push is checked before the target). -/
theorem exec_call_of_full (n : Addr12) (h : s.cfg.stackCapacity ≤ s.sp + 1) :
    exec (.call n) s = .next (s.halt .stackOverflow) := by
  change execCall n s = _
  rw [execCall, State.push_of_full _ h]
  rfl

/-- 2NNN with a free slot and an even target, which as a 12-bit address is in range. -/
theorem exec_call_of_free {n : Addr12} (h : s.sp + 1 < s.cfg.stackCapacity) (hn : n.toNat % 2 = 0) :
    exec (.call n) s = .next
      { s with pc := BitVec.ofNat 16 n.toNat, sp := s.sp + 1,
               stack := s.stack.set (s.sp + 1).toNat (BitVec.ofNat 16 (s.pc.toNat + 2)),
               report := .outcome .normal } := by
  change execCall n s = _
  rw [execCall, State.push_of_free _ h]
  change s.complete .normal (State.nextPC _ n.toNat) = _
  rw [State.nextPC_of_ok _ n.isLt hn]
  rfl

/-- 00EE when the address on top is one that NextPC accepts. -/
theorem exec_ret_of_top (h : s.sp ≠ -1) (hlt : (s.slot s.sp.toNat).toNat < 0x1000)
    (heven : (s.slot s.sp.toNat).toNat % 2 = 0) :
    exec .ret s = .next { s with pc := s.slot s.sp.toNat, sp := s.sp - 1, report := .outcome .normal } := by
  change execRet s = _
  rw [execRet, State.pop_of_sp h]
  change s.complete .normal (State.nextPC _ (s.slot s.sp.toNat).toNat) = _
  rw [State.nextPC_of_ok _ hlt heven, State.complete_ok, State.atPc, BitVec.ofNat_toNat, BitVec.setWidth_eq]
  rfl

end Sys2Proof.Machine

namespace Sys2Proof

open Machine

/-- Settles O38: the slot that the call wrote is the one on top when the return reads it, and it holds the address
after the call, which NextPC accepts. -/
theorem callThenReturnResumes : Obligations.CallThenReturnResumes := by
  rintro s n ⟨hlen, hbot, -⟩ ⟨hpc, hroom⟩ hn
  refine ⟨exec_call_of_full n, fun hfree => ⟨_, exec_call_of_free hfree hn, rfl, rfl, rfl, rfl, ?_⟩⟩
  intro u (hsp : u.sp = s.sp + 1) hstack
  have htop : u.slot u.sp.toNat = BitVec.ofNat 16 (s.pc.toNat + 2) := by
    rw [hsp]
    exact State.slot_of_stack_eq_set hstack (by omega)
  have haddr : (u.slot u.sp.toNat).toNat = s.pc.toNat + 2 := by
    rw [htop, BitVec.toNat_ofNat, Nat.mod_eq_of_lt (by omega)]
  have hback : u.sp - 1 = s.sp := by omega
  exact ⟨_, exec_ret_of_top (by omega) (by omega) (by omega), haddr, hback, rfl, rfl, rfl, rfl⟩

/-- Settles O35: 0NNN is the bare advance by 2. -/
theorem sysIsNoOp : Obligations.SysIsNoOp := by
  intro s n
  refine ⟨State.complete_advance_of_room s .normal, fun hpc => State.complete_advance_outOfRange s .normal ?_⟩
  rw [hpc]
  decide

end Sys2Proof
end

section
/-! PROOFS. Display (43_display R210, R212): clearing every pixel, and plotting one. -/

namespace Sys2Proof.Machine

/-! 00E0. -/

theorem exec_cls_of_room {s : State} (h : s.RoomFor 2) :
    exec .cls s = .next ((s.setDisp Display.blank).moved 2 .displayDirty) :=
  State.complete_advance_of_room (u := s.setDisp Display.blank) s .displayDirty h

theorem exec_cls_outOfRange {s : State} (h : 0x1000 ≤ s.pc.toNat + 2) :
    exec .cls s = .next (s.halt .pcOutOfRange) :=
  State.complete_advance_outOfRange (u := s.setDisp Display.blank) s .displayDirty h

/-! Plot. -/

@[simp] theorem plot_false (dc : Display × Bool) (px : Fin 64) (py : Fin 32) : plot dc px py false = dc := rfl

/-- At its own pixel a plot XORs its bit. -/
theorem get_plot_self (d : Display) (c b : Bool) (px : Fin 64) (py : Fin 32) :
    Display.get (plot (d, c) px py b).1 px py = (Display.get d px py ^^ b) := by
  simp [get_plot]

/-- A plot keeps every pixel but its own. -/
theorem get_plot_of_ne (d : Display) (c b : Bool) {px qx : Fin 64} {py qy : Fin 32} (h : qx ≠ px ∨ qy ≠ py) :
    Display.get (plot (d, c) px py b).1 qx qy = Display.get d qx qy := by
  have hne : (px == qx && py == qy) = false := by
    rw [Bool.and_eq_false_iff, beq_eq_false_iff_ne, beq_eq_false_iff_ne]
    exact h.imp Ne.symm Ne.symm
  rw [get_plot, hne, Bool.false_and, Bool.xor_false]

end Sys2Proof.Machine

namespace Sys2Proof

open Machine

/-- Settles O54: 00E0 is the advance by 2 from the state with a blank display. -/
theorem clearTurnsEveryPixelOff : Obligations.ClearTurnsEveryPixelOff := by
  intro s
  refine ⟨fun hroom => ⟨_, exec_cls_of_room hroom, Display.get_blank, rfl⟩, fun hpc => exec_cls_outOfRange ?_⟩
  rw [hpc]
  decide

/-- Settles O55: a 1 bit is XORed into the pixel, and it collides when the pixel was on. -/
theorem plotFlipsOnePixel : Obligations.PlotFlipsOnePixel := by
  intro d c bit px py
  refine ⟨?clears, ?sets, ?zero, fun qx qy => get_plot_of_ne d c bit⟩
  case clears =>
    rintro rfl hon
    rw [get_plot_self, collision_plot, hon]
    exact ⟨rfl, Bool.or_true c⟩
  case sets =>
    rintro rfl hoff
    rw [get_plot_self, collision_plot, hoff]
    exact ⟨rfl, Bool.or_false c⟩
  case zero =>
    rintro rfl
    exact plot_false (d, c) px py

end Sys2Proof
end

section
/-! PROOFS. Timer moves (44_timer_input R232 to R234): FX07, FX15 and FX18 each make one write and advance by 2. -/

namespace Sys2Proof.Machine

variable {s : State} (x : Reg)

/-! FX07, FX15 and FX18 with room to advance: the write, then the advance from the state it left. -/

theorem exec_ldVxDT_of_room (h : s.RoomFor 2) :
    exec (.ldVxDT x) s = .next ((s.setV x s.dt).moved 2 .normal) :=
  State.complete_advance_of_room (u := s.setV x s.dt) s .normal h

theorem exec_ldDTVx_of_room (h : s.RoomFor 2) :
    exec (.ldDTVx x) s = .next ((s.setDT (s.getV x)).moved 2 .normal) :=
  State.complete_advance_of_room (u := s.setDT (s.getV x)) s .normal h

theorem exec_ldSTVx_of_room (h : s.RoomFor 2) :
    exec (.ldSTVx x) s = .next ((s.setST (s.getV x)).moved 2 .normal) :=
  State.complete_advance_of_room (u := s.setST (s.getV x)) s .normal h

/-! At the end of memory the write is dropped with the halt. -/

theorem exec_ldVxDT_outOfRange (h : 0x1000 ≤ s.pc.toNat + 2) :
    exec (.ldVxDT x) s = .next (s.halt .pcOutOfRange) :=
  State.complete_advance_outOfRange (u := s.setV x s.dt) s .normal h

theorem exec_ldDTVx_outOfRange (h : 0x1000 ≤ s.pc.toNat + 2) :
    exec (.ldDTVx x) s = .next (s.halt .pcOutOfRange) :=
  State.complete_advance_outOfRange (u := s.setDT (s.getV x)) s .normal h

theorem exec_ldSTVx_outOfRange (h : 0x1000 ≤ s.pc.toNat + 2) :
    exec (.ldSTVx x) s = .next (s.halt .pcOutOfRange) :=
  State.complete_advance_outOfRange (u := s.setST (s.getV x)) s .normal h

end Sys2Proof.Machine

namespace Sys2Proof

open Machine

/-- Settles O58: each of the three is its one write followed by the advance by 2, which at 0xFFE leaves memory. -/
theorem timerMoves : Obligations.TimerMoves := by
  intro s x
  constructor
  case left =>
    intro hroom
    refine ⟨?_, exec_ldDTVx_of_room x hroom, exec_ldSTVx_of_room x hroom⟩
    rw [exec_ldVxDT_of_room x hroom, State.setV_eq_withV]
  case right =>
    intro hpc
    have hend : 0x1000 ≤ s.pc.toNat + 2 := by
      rw [hpc]
      decide
    exact ⟨exec_ldVxDT_outOfRange x hend, exec_ldDTVx_outOfRange x hend, exec_ldSTVx_outOfRange x hend⟩

end Sys2Proof
end

section
/-! PROOFS. Create's one error (60_exceptions R267), and Tick (R275). -/

namespace Sys2Proof.Machine

/-! Create. -/

/-- A ROM that does not fit into 0x200..0xFFF is refused: the other half of `State.create_eq_ok`. -/
theorem State.create_of_too_long (c : Config) {rom : List Byte} (h : 3584 < rom.length) :
    State.create c rom = .error .romTooLarge :=
  if_pos h

/-! Tick. -/

/-- A timer counts down by one; subtraction of naturals stops at zero as the timer does. -/
theorem countDown_toNat (t : Byte) : (countDown t).toNat = t.toNat - 1 := by
  unfold countDown
  split
  case isTrue hzero => rw [hzero]; rfl
  case isFalse hpos => bv_omega

variable {s : State} {rest : List Transaction}

/-- A Tick in a live session. -/
theorem step_tick_of_live (h : s.Live) (hp : s.pending = .tick :: rest) :
    step s = .next { s.tick with pending := rest } := by
  obtain ⟨hrun, hlive⟩ := h
  simp [step, transact, hlive, hp, State.whenRunning, hrun, State.consume]

/-- A Tick in a Halted session has no transition (R263). -/
theorem step_tick_of_halted {e : EngineError} (hh : s.status = .halted e) (hd : s.destroyed = false)
    (hp : s.pending = .tick :: rest) : step s = .fault (.sessionHalted e) := by
  simp [step, transact, hd, hp, State.whenRunning, hh, mapNext]

end Sys2Proof.Machine

namespace Sys2Proof

open Machine

/-- Settles O15: Create compares the length with 3584 first, and a ROM of exactly that length reaches the end of memory, so
every address from 0x200 up holds a byte of it. -/
theorem romTooLargeIsRefused : Obligations.RomTooLargeIsRefused := by
  intro c rom
  refine ⟨State.create_of_too_long c, fun hlen => ?_⟩
  obtain ⟨t, ht⟩ : ∃ t, State.create c rom = .ok t := ⟨_, State.create_eq_ok.2 ⟨hlen.le, rfl⟩⟩
  refine ⟨t, ht, fun a hlo hhi => ?_⟩
  have hrom := State.peek_create_rom ht (k := a - 0x200) (by omega)
  rwa [Nat.add_sub_cancel' hlo] at hrom

/-- Settles O10: a running session answers `State.tick` with the Tick taken off the list, and each timer is its own
`countDown`; a halted one answers no state. -/
theorem tickCountsDown : Obligations.TickCountsDown := by
  intro s rest hd hp
  have htest (t : Byte) :
      if t.toNat = 0 then countDown t = t else (countDown t).toNat = t.toNat - 1 := by
    split
    case isTrue hzero => exact BitVec.eq_of_toNat_eq (by rw [countDown_toNat]; omega)
    case isFalse => exact countDown_toNat t
  constructor
  case left => exact fun hrun => ⟨_, step_tick_of_live ⟨hrun, hd⟩ hp, rfl, htest s.dt, htest s.st⟩
  case right =>
    intro hstopped t
    cases hstatus : s.status with
    | running => exact absurd hstatus hstopped
    | halted e => simp [step_tick_of_halted hstatus hd hp]

end Sys2Proof
end

section
/-! PROOFS. Decoding against encoding (30_encoding R72 to R77): each is the other's inverse, the rows of R75 decide the
decoder, and which words are unknown. -/

namespace Sys2Proof

/-! Decoding an encoded instruction. -/

/-- Every 0NNN word but the two exact ones decodes to 0NNN (30_encoding R76). -/
theorem decode0_encNNN {nnn : Addr12} (h0 : nnn ≠ 0x0E0) (hE : nnn ≠ 0x0EE) :
    decode0 (encNNN 0 nnn) = .sys nnn := by
  have hne {v : Addr12} (hv : nnn ≠ v) : encNNN 0 nnn ≠ encNNN 0 v := fun h =>
    hv (by simpa using congrArg fieldNNN h)
  calc decode0 (encNNN 0 nnn)
    _ = .sys (fieldNNN (encNNN 0 nnn)) := (if_neg (hne hE)).trans (if_neg (hne h0))
    _ = .sys nnn := by rw [fieldNNN_encNNN]

/-- An encoded instruction decodes to itself. -/
theorem decodeWord_encode {i : Instr} (h : i.wf = true) : decodeWord (encode i) = .ok i := by
  cases i with
  | ret | cls => decide
  | sys nnn =>
    simp only [Instr.wf, Bool.and_eq_true, bne_iff_ne] at h
    simpa [decodeWord, encode] using decode0_encNNN h.1 h.2
  | jp | call | ldI | jpV0 | seImm | sneImm | ldImm | addImm | rnd | seReg | sneReg | drw =>
    simp [decodeWord, encode]
  | ldReg | orReg | andReg | xorReg | addReg | subReg | shr | subnReg | shl =>
    simp [decodeWord, decode8, encode]
  | skp | sknp => simp [decodeWord, decodeE, encode]
  | ldVxDT | ldVxK | ldDTVx | ldSTVx | addI | ldF | ldB | ldMemVx | ldVxMem =>
    simp [decodeWord, decodeF, encode]

/-- Settles O2: each field of the encoded word is the operand it was made of, so the decoder finds the instruction's own
family and operands; its two bytes make the word again. -/
theorem decodeInvertsEncode : Obligations.DecodeInvertsEncode := by
  intro i rest hwf
  have hword := decodeWord_encode hwf
  refine ⟨hword, ?_⟩
  rw [encodeBytes, decode_wordBytes, hword]

/-- Settles O1: the words are written out, so the decoder runs on each. -/
theorem wordsDecodeAsListed : Obligations.WordsDecodeAsListed := by
  unfold Obligations.WordsDecodeAsListed
  decide

/-! Encoding a decoded word, family by family: the fields that selected the family are the pattern's bits. -/

section
variable {w : Word} {i : Instr} {op : Nibble}

theorem eq_ofNat_of_toNat {n k : Nat} {b : BitVec n} (h : b.toNat = k) : b = BitVec.ofNat n k := by
  rw [← h, BitVec.ofNat_toNat, BitVec.setWidth_eq]

theorem encNNN_of_field0 (h : field0 w = op) : encNNN op (fieldNNN w) = w := h ▸ encNNN_fields w

theorem encXNN_of_field0 (h : field0 w = op) : encXNN op (fieldX w) (fieldNN w) = w := h ▸ encXNN_fields w

theorem encXYN_of_field0 (h : field0 w = op) : encXYN op (fieldX w) (fieldY w) (field3 w) = w :=
  h ▸ encXYN_fields w

theorem encode_decode0 (h : field0 w = 0) : encode (decode0 w) = w ∧ (decode0 w).wf = true := by
  unfold decode0
  split
  case isTrue hret => exact ⟨hret.symm, rfl⟩
  case isFalse hret =>
    split
    case isTrue hcls => exact ⟨hcls.symm, rfl⟩
    case isFalse hcls =>
      have hw : encNNN 0 (fieldNNN w) = w := encNNN_of_field0 h
      refine ⟨hw, ?_⟩
      simp only [Instr.wf, Bool.and_eq_true, bne_iff_ne]
      exact ⟨fun hv => hcls (hw.symm.trans (congrArg _ hv)), fun hv => hret (hw.symm.trans (congrArg _ hv))⟩

theorem encode_of_decode8 (h : field0 w = 8) (hd : decode8 w = .ok i) : encode i = w ∧ i.wf = true := by
  have hw := encXYN_of_field0 h
  unfold decode8 at hd
  split at hd <;> cases hd
  all_goals
    rename_i hn
    rw [eq_ofNat_of_toNat hn] at hw
    exact ⟨hw, rfl⟩

theorem encode_of_decodeE (h : field0 w = 0xE) (hd : decodeE w = .ok i) : encode i = w ∧ i.wf = true := by
  have hw := encXNN_of_field0 h
  unfold decodeE at hd
  split at hd <;> cases hd
  all_goals
    rename_i hn
    rw [eq_ofNat_of_toNat hn] at hw
    exact ⟨hw, rfl⟩

theorem encode_of_decodeF (h : field0 w = 0xF) (hd : decodeF w = .ok i) : encode i = w ∧ i.wf = true := by
  have hw := encXNN_of_field0 h
  unfold decodeF at hd
  split at hd <;> cases hd
  all_goals
    rename_i hn
    rw [eq_ofNat_of_toNat hn] at hw
    exact ⟨hw, rfl⟩

theorem encode_of_decodeWord (hd : decodeWord w = .ok i) : encode i = w ∧ i.wf = true := by
  unfold decodeWord at hd
  split at hd
  case h_1 h0 =>
    cases hd
    exact encode_decode0 (eq_ofNat_of_toNat h0)
  case h_9 h8 => exact encode_of_decode8 (eq_ofNat_of_toNat h8) hd
  case h_15 hE => exact encode_of_decodeE (eq_ofNat_of_toNat hE) hd
  case h_16 =>
    have hlt : (field0 w).toNat < 16 := (field0 w).isLt
    exact encode_of_decodeF (eq_ofNat_of_toNat (k := 15) (by grind)) hd
  case h_2 h | h_3 h | h_11 h | h_12 h =>
    cases hd
    exact ⟨encNNN_of_field0 (eq_ofNat_of_toNat h), rfl⟩
  case h_4 h | h_5 h | h_7 h | h_8 h | h_13 h =>
    cases hd
    exact ⟨encXNN_of_field0 (eq_ofNat_of_toNat h), rfl⟩
  case h_6 h | h_10 h | h_14 h =>
    cases hd
    exact ⟨encXYN_of_field0 (eq_ofNat_of_toNat h), rfl⟩

end

/-- Settles O3: in each family the fields that selected the constructor are its pattern, and the rest are its
operands. -/
theorem encodeInvertsDecode : Obligations.EncodeInvertsDecode := fun _ _ => encode_of_decodeWord

/-! The unknown words: which words a family has no pattern for. -/

section
variable {w : Word} {e : DecodeError}

theorem field0_toNat (w : Word) : (field0 w).toNat = w.toNat / 0x1000 := by
  have hlt : w.toNat < 0x10000 := w.isLt
  simp [field0, BitVec.extractLsb'_toNat, Nat.shiftRight_eq_div_pow]
  omega

theorem field3_toNat (w : Word) : (field3 w).toNat = w.toNat % 16 := by
  simp [field3, BitVec.extractLsb'_toNat]

theorem fieldNN_toNat (w : Word) : (fieldNN w).toNat = w.toNat % 256 := by
  simp [fieldNN, BitVec.extractLsb'_toNat]

theorem decode8_eq_error : decode8 w = .error e ↔
    e = .unknownOpcode w ∧ (field3 w).toNat ∈ [0x8, 0x9, 0xA, 0xB, 0xC, 0xD, 0xF] := by
  have hlt : (field3 w).toNat < 16 := (field3 w).isLt
  unfold decode8
  split
  case h_10 => grind
  all_goals simp [*]

theorem decodeE_eq_error : decodeE w = .error e ↔
    e = .unknownOpcode w ∧ (fieldNN w).toNat ∉ [0x9E, 0xA1] := by
  unfold decodeE
  split
  case h_3 => grind
  all_goals simp [*]

theorem decodeF_eq_error : decodeF w = .error e ↔
    e = .unknownOpcode w ∧ (fieldNN w).toNat ∉ [0x07, 0x0A, 0x15, 0x18, 0x1E, 0x29, 0x33, 0x55, 0x65] := by
  unfold decodeF
  split
  case h_10 =>
    simp only [List.mem_cons, List.not_mem_nil]
    grind
  all_goals simp [*]

theorem decodeWord_eq_error : decodeWord w = .error e ↔ e = .unknownOpcode w ∧
    (((field0 w).toNat = 0x8 ∧ (field3 w).toNat ∈ [0x8, 0x9, 0xA, 0xB, 0xC, 0xD, 0xF]) ∨
     ((field0 w).toNat = 0xE ∧ (fieldNN w).toNat ∉ [0x9E, 0xA1]) ∨
     ((field0 w).toNat = 0xF ∧
       (fieldNN w).toNat ∉ [0x07, 0x0A, 0x15, 0x18, 0x1E, 0x29, 0x33, 0x55, 0x65])) := by
  have hlt : (field0 w).toNat < 16 := (field0 w).isLt
  unfold decodeWord
  split
  case h_9 h8 => simp [h8, decode8_eq_error]
  case h_15 hE => simp [hE, decodeE_eq_error]
  case h_16 =>
    have hF : (field0 w).toNat = 0xF := by grind
    simp [hF, decodeF_eq_error]
  all_goals simp [*]

end

/-- Settles O4: only the families 8, E and F have words without a pattern, and their selecting field is the low nibble
or the low byte. -/
theorem unknownWordsExactly : Obligations.UnknownWordsExactly := by
  intro w
  refine ⟨?_, fun e he => (decodeWord_eq_error.1 he).1⟩
  rw [decodeWord_eq_error, field0_toNat, field3_toNat, fieldNN_toNat]
  exact and_iff_right rfl

/-! The rows of R75: a word that matches a row has the row's bits in the fields that select the constructor. -/

theorem rowMatches_encode {i : Instr} (h : i.wf = true) : i.rowMatches (encode i) = true := by
  cases i with
  | ret => exact Laws.Row.ret h
  | cls => exact Laws.Row.cls h
  | sys nnn => exact Laws.Row.sys nnn h
  | jp nnn => exact Laws.Row.jp nnn h
  | call nnn => exact Laws.Row.call nnn h
  | seImm x nn => exact Laws.Row.seImm x nn h
  | sneImm x nn => exact Laws.Row.sneImm x nn h
  | seReg x y z => exact Laws.Row.seReg x y z h
  | ldImm x nn => exact Laws.Row.ldImm x nn h
  | addImm x nn => exact Laws.Row.addImm x nn h
  | ldReg x y => exact Laws.Row.ldReg x y h
  | orReg x y => exact Laws.Row.orReg x y h
  | andReg x y => exact Laws.Row.andReg x y h
  | xorReg x y => exact Laws.Row.xorReg x y h
  | addReg x y => exact Laws.Row.addReg x y h
  | subReg x y => exact Laws.Row.subReg x y h
  | shr x y => exact Laws.Row.shr x y h
  | subnReg x y => exact Laws.Row.subnReg x y h
  | shl x y => exact Laws.Row.shl x y h
  | sneReg x y z => exact Laws.Row.sneReg x y z h
  | ldI nnn => exact Laws.Row.ldI nnn h
  | jpV0 nnn => exact Laws.Row.jpV0 nnn h
  | rnd x nn => exact Laws.Row.rnd x nn h
  | drw x y n => exact Laws.Row.drw x y n h
  | skp x => exact Laws.Row.skp x h
  | sknp x => exact Laws.Row.sknp x h
  | ldVxDT x => exact Laws.Row.ldVxDT x h
  | ldVxK x => exact Laws.Row.ldVxK x h
  | ldDTVx x => exact Laws.Row.ldDTVx x h
  | ldSTVx x => exact Laws.Row.ldSTVx x h
  | addI x => exact Laws.Row.addI x h
  | ldF x => exact Laws.Row.ldF x h
  | ldB x => exact Laws.Row.ldB x h
  | ldMemVx x => exact Laws.Row.ldMemVx x h
  | ldVxMem x => exact Laws.Row.ldVxMem x h

section
variable {w : Word}

theorem field0_and_F000 (w : Word) : field0 (w &&& 0xF000) = field0 w :=
  BitVec.extractLsb'_and.trans BitVec.and_allOnes

theorem field0_and_F00F (w : Word) : field0 (w &&& 0xF00F) = field0 w :=
  BitVec.extractLsb'_and.trans BitVec.and_allOnes

theorem field3_and_F00F (w : Word) : field3 (w &&& 0xF00F) = field3 w :=
  BitVec.extractLsb'_and.trans BitVec.and_allOnes

theorem field0_and_F0FF (w : Word) : field0 (w &&& 0xF0FF) = field0 w :=
  BitVec.extractLsb'_and.trans BitVec.and_allOnes

theorem fieldNN_and_F0FF (w : Word) : fieldNN (w &&& 0xF0FF) = fieldNN w :=
  BitVec.extractLsb'_and.trans BitVec.and_allOnes

/-- A word that matches a row decodes to an instruction of the row: the masked bits are those the decoder tests. -/
theorem exists_decode_of_rowMatches {i : Instr} (h : i.rowMatches w = true) :
    ∃ j, decodeWord w = .ok j ∧ j.rowMatch = i.rowMatch := by
  simp only [Instr.rowMatches, Bool.and_eq_true, beq_iff_eq, Bool.not_eq_true', List.contains_eq_mem,
    decide_eq_false_iff_not] at h
  obtain ⟨hand, hex⟩ := h
  cases i with
  | ret | cls =>
    have hw : w = _ := BitVec.and_allOnes.symm.trans hand
    rw [hw]
    exact ⟨_, rfl, rfl⟩
  | sys nnn =>
    have hf := (field0_and_F000 w).symm.trans (congrArg field0 hand)
    have hne : w ≠ 0x00E0 ∧ w ≠ 0x00EE := by simpa [Instr.rowExcludes, Instr.rowMatch] using hex
    have hd : decode0 w = .sys (fieldNNN w) := (if_neg hne.2).trans (if_neg hne.1)
    rw [decodeWord, hf, hd]
    simp [field0, Instr.rowMatch]
  | jp | call | seImm | sneImm | seReg | ldImm | addImm | sneReg | ldI | jpV0 | rnd | drw =>
    have hf := (field0_and_F000 w).symm.trans (congrArg field0 hand)
    rw [decodeWord, hf]
    simp [field0, Instr.rowMatch]
  | ldReg | orReg | andReg | xorReg | addReg | subReg | shr | subnReg | shl =>
    have hf := (field0_and_F00F w).symm.trans (congrArg field0 hand)
    have hsel := (field3_and_F00F w).symm.trans (congrArg field3 hand)
    rw [decodeWord, decode8, hf, hsel]
    simp [field0, field3, Instr.rowMatch]
  | skp | sknp =>
    have hf := (field0_and_F0FF w).symm.trans (congrArg field0 hand)
    have hsel := (fieldNN_and_F0FF w).symm.trans (congrArg fieldNN hand)
    rw [decodeWord, decodeE, hf, hsel]
    simp [field0, fieldNN, Instr.rowMatch]
  | ldVxDT | ldVxK | ldDTVx | ldSTVx | addI | ldF | ldB | ldMemVx | ldVxMem =>
    have hf := (field0_and_F0FF w).symm.trans (congrArg field0 hand)
    have hsel := (fieldNN_and_F0FF w).symm.trans (congrArg fieldNN hand)
    rw [decodeWord, decodeF, hf, hsel]
    simp [field0, fieldNN, Instr.rowMatch]

end

/-- Settles O5: a word that decodes is the encoding of its instruction, which matches its own row; and the bits a
row's mask selects are the ones the decoder tests. -/
theorem rowsDecideDecoding : Obligations.RowsDecideDecoding := by
  refine ⟨fun w i hd => ?_, fun w i h => exists_decode_of_rowMatches h⟩
  obtain ⟨rfl, hwf⟩ := encode_of_decodeWord hd
  exact rowMatches_encode hwf

end Sys2Proof
end

section
/-! PROOFS. The shape of every instruction: what it writes and the target it gives NextPC, or the error of its own it
meets first; then NextPC, then its tag or its fatal error (00_scope R14, R15). FX0A with no key down is the one
instruction that does not end so. -/

namespace Sys2Proof

open Machine

/-- The tag an instruction returns when it completes (60_exceptions R260, D28). -/
def Instr.tag : Instr → Tag
  | .cls | .drw _ _ _ => .displayDirty
  | .skp _ | .sknp _ => .keyQuery
  | _ => .normal

/-- What an instruction does before NextPC: the state its writes leave and the exact target, or its own error. -/
def Instr.effect (s : State) : Instr → Except EngineError (State × Nat)
  | .ret => s.pop.map fun p => (p.2, p.1.toNat)
  | .cls => .ok (s.setDisp Display.blank, s.pc.toNat + 2)
  | .sys _ => .ok (s, s.pc.toNat + 2)
  | .jp nnn => .ok (s, nnn.toNat)
  | .call nnn => (s.push (BitVec.ofNat 16 (s.pc.toNat + 2))).map fun t => (t, nnn.toNat)
  | .seImm x nn => .ok (s, s.pc.toNat + if s.getV x == nn then 4 else 2)
  | .sneImm x nn => .ok (s, s.pc.toNat + if s.getV x != nn then 4 else 2)
  | .seReg x y _ => .ok (s, s.pc.toNat + if s.getV x == s.getV y then 4 else 2)
  | .ldImm x nn => .ok (s.setV x nn, s.pc.toNat + 2)
  | .addImm x nn => .ok (s.setV x (s.getV x + nn), s.pc.toNat + 2)
  | .ldReg x y => .ok (s.setV x (s.getV y), s.pc.toNat + 2)
  | .orReg x y => .ok (s.setV x (s.getV x ||| s.getV y), s.pc.toNat + 2)
  | .andReg x y => .ok (s.setV x (s.getV x &&& s.getV y), s.pc.toNat + 2)
  | .xorReg x y => .ok (s.setV x (s.getV x ^^^ s.getV y), s.pc.toNat + 2)
  | .addReg x y => .ok (s.setWithFlag x (s.getV x + s.getV y) (carryFlag (s.getV x) (s.getV y)), s.pc.toNat + 2)
  | .subReg x y =>
    .ok (s.setWithFlag x (if borrowFlag (s.getV x) (s.getV y) then 0 else s.getV x - s.getV y)
      (borrowFlag (s.getV x) (s.getV y)), s.pc.toNat + 2)
  | .shr x _ => .ok (s.setWithFlag x (s.getV x >>> 1) (lowBit (s.getV x)), s.pc.toNat + 2)
  | .subnReg x y => .ok (s.setWithFlag x (s.getV y - s.getV x) (aboveFlag (s.getV x) (s.getV y)), s.pc.toNat + 2)
  | .shl x _ => .ok (s.setWithFlag x (s.getV x <<< 1) (highBit (s.getV x)), s.pc.toNat + 2)
  | .sneReg x y _ => .ok (s, s.pc.toNat + if s.getV x != s.getV y then 4 else 2)
  | .ldI nnn => .ok (s.setI (addrImm nnn), s.pc.toNat + 2)
  | .jpV0 nnn => .ok (s, nnn.toNat + (s.getV 0).toNat)
  | .rnd x nn => .ok (s.setV x (s.rnd &&& nn), s.pc.toNat + 2)
  | .drw x y n => (s.readBytes (s.effAddr 0) n.toNat).map fun rows =>
    ((s.setDisp (drawRows (s.getV x) (s.getV y) 0 rows (s.disp, false)).1).setV Reg.vf
      (flagByte (drawRows (s.getV x) (s.getV y) 0 rows (s.disp, false)).2), s.pc.toNat + 2)
  | .skp x =>
    if 0xF < (s.getV x).toNat then .error .invalidKeyIndex
    else .ok (s, s.pc.toNat + if keyDown s.keys (s.getV x).toNat == true then 4 else 2)
  | .sknp x =>
    if 0xF < (s.getV x).toNat then .error .invalidKeyIndex
    else .ok (s, s.pc.toNat + if keyDown s.keys (s.getV x).toNat == false then 4 else 2)
  | .ldVxDT x => .ok (s.setV x s.dt, s.pc.toNat + 2)
  | .ldVxK x => .ok (s.setV x (BitVec.ofNat 8 ((firstPressed s.keys).getD 0).val), s.pc.toNat + 2)
  | .ldDTVx x => .ok (s.setDT (s.getV x), s.pc.toNat + 2)
  | .ldSTVx x => .ok (s.setST (s.getV x), s.pc.toNat + 2)
  | .addI x => .ok (s.setI (BitVec.ofNat 16 (s.i.toNat + (s.getV x).toNat)), s.pc.toNat + 2)
  | .ldF x =>
    if 0xF < (s.getV x).toNat then .error .invalidFontIndex
    else .ok (s.setI (BitVec.ofNat 16 (5 * (s.getV x).toNat)), s.pc.toNat + 2)
  | .ldB x => (s.writeBytes (s.effAddr 0) (bcdDigits (s.getV x))).map fun t => (t, s.pc.toNat + 2)
  | .ldMemVx x => (s.writeBytes (s.effAddr 0) ((regsUpTo x).map s.getV)).map fun t => (t, s.pc.toNat + 2)
  | .ldVxMem x =>
    (s.readBytes (s.effAddr 0) (x.val + 1)).map fun bs => (s.setRegs (regsUpTo x) bs, s.pc.toNat + 2)

namespace Machine

/-! The keys. -/

/-- The key scan finds no key exactly when none is down. -/
theorem firstPressed_eq_none {keys : BitVec 16} : firstPressed keys = none ↔ keys = 0 := by
  have hall : ∀ k : KeyCode, k ∈ allRegs := by decide
  simp only [firstPressed, List.find?_eq_none, hall, true_imp_iff, keyDown, Bool.not_eq_true]
  constructor
  · intro h
    exact BitVec.eq_of_getLsbD_eq fun k hk => by simpa using h ⟨k, hk⟩
  · rintro rfl k
    simp

/-- Entry k of the scan is key k. -/
theorem getElem_allRegs (k : Nat) (h : k < allRegs.length) : (allRegs[k]).val = k := by
  have h16 : k < 16 := h
  interval_cases k <;> rfl

/-- The key scan finds the lowest key that is down. -/
theorem firstPressed_eq_some {keys : BitVec 16} {k : KeyCode} (hk : keys.getLsbD k.val = true)
    (hlow : ∀ j : KeyCode, j < k → keys.getLsbD j.val = false) : firstPressed keys = some k := by
  refine List.find?_eq_some_iff_getElem.2 ⟨hk, k.val, k.isLt, Fin.ext (getElem_allRegs k k.isLt), fun j hj => ?_⟩
  have hjk := getElem_allRegs j (hj.trans k.isLt)
  simp only [keyDown, hjk, hlow ⟨j, hj.trans k.isLt⟩ hj, Bool.not_false]

/-! The shape. -/

variable {s t u : State} {i : Instr} {n a : Nat} {e : EngineError} {bs : List Byte}

theorem bind_map {α β γ : Type} (r : Except EngineError α) (f : α → β) (g : β → Except EngineError γ) :
    (r.map f).bind g = r.bind fun a => g (f a) := by
  cases r <;> rfl

theorem State.writeBytes_eq_ok :
    s.writeBytes a bs = .ok t ↔ (bs = [] ∨ a + bs.length ≤ 0x1000) ∧ t = s.pokeBytes a bs := by
  rw [State.writeBytes_spec]
  split <;> simp [*, eq_comm]

theorem State.pokeBytes_pc (s : State) (a : Nat) (bs : List Byte) : (s.pokeBytes a bs).pc = s.pc := by
  rw [(State.pokeBytes_frame bs s a).1]

theorem State.setRegs_pc (s : State) (rs : List Reg) (bs : List Byte) : (s.setRegs rs bs).pc = s.pc := by
  rw [State.setRegs_frame]

/-- The advance after a store starts from the instruction's own pc. -/
theorem State.writeBytes_bind_advance (s : State) (a : Nat) (bs : List Byte) :
    (s.writeBytes a bs).bind State.advance = (s.writeBytes a bs).bind fun t => t.nextPC (s.pc.toNat + 2) := by
  rw [State.writeBytes_spec]
  split
  · exact congrArg (fun pc : Word => (s.pokeBytes a bs).nextPC (pc.toNat + 2)) (s.pokeBytes_pc a bs)
  · rfl

/-- FX0A with no key down waits, and changes nothing (44_timer_input R240). -/
theorem exec_ldVxK_blocked (x : Reg) (h : s.keys = 0) :
    exec (.ldVxK x) s = .next (s.returns .keyWaitBlocked) := by
  change execLdVxK x s = _
  rw [execLdVxK, firstPressed_eq_none.2 h]

/-- Every other instruction, and FX0A with a key down: its effect, NextPC, its tag or its error. -/
theorem exec_eq_complete (hkey : ∀ x, i = .ldVxK x → s.keys ≠ 0) :
    exec i s = s.complete i.tag ((i.effect s).bind fun p => p.1.nextPC p.2) := by
  cases i with
  | cls | sys | jp | jpV0 | seImm | sneImm | seReg | sneReg | ldImm | addImm | ldReg | orReg | andReg | xorReg
  | addReg | subReg | shr | subnReg | shl | rnd | ldI | addI | ldVxDT | ldDTVx | ldSTVx => rfl
  | ret | call =>
    refine congrArg (s.complete _) ?_
    rw [Instr.effect, bind_map]
  | drw =>
    refine congrArg (s.complete _) ?_
    rw [Instr.effect, bind_map]
    rfl
  | ldB | ldMemVx =>
    refine congrArg (s.complete _) ?_
    rw [Instr.effect, bind_map, State.writeBytes_bind_advance]
  | ldVxMem x =>
    have hadv (bs : List Byte) :
        (s.setRegs (regsUpTo x) bs).advance = (s.setRegs (regsUpTo x) bs).nextPC (s.pc.toNat + 2) := by
      rw [State.advance, State.setRegs_pc]
    refine congrArg (s.complete _) ?_
    simp only [Instr.effect, bind_map, hadv]
  | skp x | sknp x =>
    refine congrArg (s.complete _) ?_
    simp only [Instr.effect, State.skipOnKey]
    split <;> rfl
  | ldF x =>
    refine congrArg (s.complete _) ?_
    simp only [Instr.effect]
    split <;> rfl
  | ldVxK x =>
    obtain ⟨k, hk⟩ : ∃ k, firstPressed s.keys = some k :=
      Option.ne_none_iff_exists'.1 (mt firstPressed_eq_none.1 (hkey x rfl))
    change execLdVxK x s = _
    simp only [execLdVxK, Instr.effect, hk]
    rfl

/-! How an instruction ends, from its effect. -/

section
variable (hkey : ∀ x, i = .ldVxK x → s.keys ≠ 0)
include hkey

theorem exec_of_effect (h : i.effect s = .ok (u, n)) (hlt : n < 0x1000) (heven : n % 2 = 0) :
    exec i s = .next ((u.atPc n).returns i.tag) := by
  rw [exec_eq_complete hkey, h]
  change s.complete i.tag (u.nextPC n) = _
  rw [State.nextPC_of_ok u hlt heven, State.complete_ok]

theorem exec_of_outOfRange (h : i.effect s = .ok (u, n)) (hge : 0x1000 ≤ n) :
    exec i s = .next (s.halt .pcOutOfRange) := by
  rw [exec_eq_complete hkey, h]
  change s.complete i.tag (u.nextPC n) = _
  rw [State.nextPC_outOfRange u hge, State.complete_error]

theorem exec_of_misaligned (h : i.effect s = .ok (u, n)) (hlt : n < 0x1000) (hodd : n % 2 = 1) :
    exec i s = .next (s.halt .pcMisaligned) := by
  rw [exec_eq_complete hkey, h]
  change s.complete i.tag (u.nextPC n) = _
  rw [State.nextPC_misaligned u hlt hodd, State.complete_error]

theorem exec_of_error (h : i.effect s = .error e) : exec i s = .next (s.halt e) := by
  rw [exec_eq_complete hkey, h]
  rfl

end

/-- The errors of NextPC, and the targets that raise them. -/
theorem State.nextPC_eq_error : s.nextPC n = .error e ↔
    (e = .pcOutOfRange ∧ 0x1000 ≤ n) ∨ (e = .pcMisaligned ∧ n < 0x1000 ∧ n % 2 = 1) := by
  obtain hlt | hge := Nat.lt_or_ge n 0x1000
  · obtain heven | hodd := Nat.mod_two_eq_zero_or_one n
    · simp [State.nextPC_of_ok s hlt heven, Nat.not_le.2 hlt, heven]
    · simp [State.nextPC_misaligned s hlt hodd, Nat.not_le.2 hlt, hlt, hodd, eq_comm]
  · simp [State.nextPC_outOfRange s hge, hge, Nat.not_lt.2 hge, eq_comm]

/-- Everything an instruction can do: complete with its effect and its tag, meet its own error, give NextPC a target it
refuses, or wait for a key. -/
theorem exec_cases (h : exec i s = .next t) :
    (∃ u n, i.effect s = .ok (u, n) ∧ n < 0x1000 ∧ n % 2 = 0 ∧ (∀ x, i = .ldVxK x → s.keys ≠ 0) ∧
      t = (u.atPc n).returns i.tag) ∨
    (∃ e, i.effect s = .error e ∧ t = s.halt e) ∨
    (∃ u n e, i.effect s = .ok (u, n) ∧ u.nextPC n = .error e ∧ t = s.halt e) ∨
    ((∃ x, i = .ldVxK x) ∧ s.keys = 0 ∧ t = s.returns .keyWaitBlocked) := by
  by_cases hblock : (∃ x, i = .ldVxK x) ∧ s.keys = 0
  · obtain ⟨⟨x, rfl⟩, hzero⟩ := hblock
    rw [exec_ldVxK_blocked x hzero] at h
    cases h
    exact .inr (.inr (.inr ⟨⟨x, rfl⟩, hzero, rfl⟩))
  · have hkey : ∀ x, i = .ldVxK x → s.keys ≠ 0 := fun x hx hzero => hblock ⟨⟨x, hx⟩, hzero⟩
    rw [exec_eq_complete hkey] at h
    cases heff : i.effect s with
    | error e =>
      rw [heff] at h
      cases h
      exact .inr (.inl ⟨e, rfl, rfl⟩)
    | ok p =>
      obtain ⟨u, n⟩ := p
      rw [heff] at h
      obtain ⟨v, hv, rfl⟩ | ⟨e, he, rfl⟩ := State.complete_eq_next.1 h
      · obtain ⟨hlt, heven, rfl⟩ := State.nextPC_eq_ok.1 hv
        exact .inl ⟨u, n, rfl, hlt, heven, hkey, rfl⟩
      · exact .inr (.inr (.inl ⟨u, n, e, rfl, he, rfl⟩))

/-- The states an instruction can end in, without what led to a halt. -/
theorem exec_ends (h : exec i s = .next t) :
    (∃ u n, i.effect s = .ok (u, n) ∧ t = (u.atPc n).returns i.tag) ∨ (∃ e, t = s.halt e) ∨
      t = s.returns .keyWaitBlocked := by
  obtain ⟨u, n, hu, -, -, -, ht⟩ | ⟨e, -, ht⟩ | ⟨u, n, e, -, -, ht⟩ | ⟨-, -, ht⟩ := exec_cases h
  · exact .inl ⟨u, n, hu, ht⟩
  · exact .inr (.inl ⟨e, ht⟩)
  · exact .inr (.inl ⟨e, ht⟩)
  · exact .inr (.inr ht)

end Machine
end Sys2Proof
end

section
/-! PROOFS. What an instruction can write, said once (10_state sections 3 to 8), and what follows for every instruction:
its writers, its errors, its tag, and that it always answers. -/

namespace Sys2Proof.Machine

/-- The ways an instruction `i` begun in `s` can write before NextPC: the state left, and the target. -/
inductive Writes (s : State) (i : Instr) : State → Nat → Prop where
  | registers (v : Vector Byte 16) (k : Nat) (hk : k = 2 ∨ k = 4) : Writes s i { s with v := v } (s.pc.toNat + k)
  | index (w : Word) (hi : (∃ m, i = .ldI m) ∨ ∃ x, i = .addI x ∨ i = .ldF x) :
    Writes s i (s.setI w) (s.pc.toNat + 2)
  | delay (b : Byte) (hi : ∃ x, i = .ldDTVx x) : Writes s i (s.setDT b) (s.pc.toNat + 2)
  | sound (b : Byte) (hi : ∃ x, i = .ldSTVx x) : Writes s i (s.setST b) (s.pc.toNat + 2)
  | display (d : Display) (v : Vector Byte 16) (hi : i = .cls ∨ ∃ x y m, i = .drw x y m) :
    Writes s i { s with disp := d, v := v } (s.pc.toNat + 2)
  | store (a : Nat) (bs : List Byte) (hin : bs = [] ∨ a + bs.length ≤ 0x1000)
    (hi : ∃ x, i = .ldB x ∨ i = .ldMemVx x) : Writes s i (s.pokeBytes a bs) (s.pc.toNat + 2)
  | jump (m : Addr12) (hi : i = .jp m) : Writes s i s m.toNat
  | jumpV0 (m : Addr12) (n : Nat) (hi : i = .jpV0 m) : Writes s i s n
  | call (m : Addr12) (u : State) (hi : i = .call m) (hpush : s.push (BitVec.ofNat 16 (s.pc.toNat + 2)) = .ok u) :
    Writes s i u m.toNat
  | ret (a : Word) (u : State) (hi : i = .ret) (hpop : s.pop = .ok (a, u)) : Writes s i u a.toNat

variable {s t u : State} {i : Instr} {n : Nat} {e : EngineError}

theorem map_eq_ok {α β : Type} {r : Except EngineError α} {f : α → β} {b : β} :
    r.map f = .ok b ↔ ∃ a, r = .ok a ∧ f a = b := by
  cases r <;> simp [Except.map]

theorem map_eq_error {α β : Type} {r : Except EngineError α} {f : α → β} : r.map f = .error e ↔ r = .error e := by
  cases r <;> simp [Except.map]

/-- The two widths of an advance (40_control_flow R104). -/
theorem skipWidth {p : Prop} [Decidable p] : (if p then 4 else 2) = 2 ∨ (if p then 4 else 2) = 4 := by
  split <;> simp

theorem skipWidth_swap {p : Prop} [Decidable p] : (if p then 2 else 4) = 2 ∨ (if p then 2 else 4) = 4 := by
  split <;> simp

/-- Every effect is one of the ways to write. -/
theorem writes_of_effect (h : i.effect s = .ok (u, n)) : Writes s i u n := by
  cases i with
  | sys | ldImm | addImm | ldReg | orReg | andReg | xorReg | addReg | subReg | shr | subnReg | shl | rnd | ldVxDT
  | ldVxK =>
    cases h
    exact .registers _ 2 (.inl rfl)
  | seImm | sneImm | seReg | sneReg =>
    cases h
    exact .registers _ _ skipWidth
  | skp | sknp =>
    simp only [Instr.effect] at h
    split at h <;> cases h
    exact .registers _ _ skipWidth
  | ldVxMem x =>
    obtain ⟨bs, -, hbs⟩ := map_eq_ok.1 h
    cases hbs
    rw [State.setRegs_frame]
    exact .registers _ 2 (.inl rfl)
  | ldI m =>
    cases h
    exact .index _ (.inl ⟨m, rfl⟩)
  | addI x =>
    cases h
    exact .index _ (.inr ⟨x, .inl rfl⟩)
  | ldF x =>
    simp only [Instr.effect] at h
    split at h <;> cases h
    exact .index _ (.inr ⟨x, .inr rfl⟩)
  | ldDTVx x =>
    cases h
    exact .delay _ ⟨x, rfl⟩
  | ldSTVx x =>
    cases h
    exact .sound _ ⟨x, rfl⟩
  | cls =>
    cases h
    exact .display _ _ (.inl rfl)
  | drw x y m =>
    obtain ⟨rows, -, hrows⟩ := map_eq_ok.1 h
    cases hrows
    exact .display _ _ (.inr ⟨x, y, m, rfl⟩)
  | ldB x =>
    obtain ⟨w, hw, hpair⟩ := map_eq_ok.1 h
    cases hpair
    obtain ⟨hin, rfl⟩ := State.writeBytes_eq_ok.1 hw
    exact .store _ _ hin ⟨x, .inl rfl⟩
  | ldMemVx x =>
    obtain ⟨w, hw, hpair⟩ := map_eq_ok.1 h
    cases hpair
    obtain ⟨hin, rfl⟩ := State.writeBytes_eq_ok.1 hw
    exact .store _ _ hin ⟨x, .inr rfl⟩
  | jp m =>
    cases h
    exact .jump m rfl
  | jpV0 m =>
    cases h
    exact .jumpV0 m _ rfl
  | call m =>
    obtain ⟨w, hw, hpair⟩ := map_eq_ok.1 h
    cases hpair
    exact .call m _ rfl hw
  | ret =>
    obtain ⟨⟨a, w⟩, hw, hpair⟩ := map_eq_ok.1 h
    cases hpair
    exact .ret a _ rfl hw

/-! What no instruction writes before NextPC. -/

theorem Writes.status_cfg (h : Writes s i u n) : u.status = s.status ∧ u.cfg = s.cfg := by
  cases h with
  | store a bs =>
    rw [(State.pokeBytes_frame bs s a).1]
    exact ⟨rfl, rfl⟩
  | call m _ _ hpush =>
    obtain ⟨-, rfl⟩ := State.push_eq_ok.1 hpush
    exact ⟨rfl, rfl⟩
  | ret a _ _ hpop =>
    obtain ⟨-, -, rfl⟩ := State.pop_eq_ok.1 hpop
    exact ⟨rfl, rfl⟩
  | registers | index | delay | sound | display | jump | jumpV0 => exact ⟨rfl, rfl⟩

/-! Who writes what. -/

/-- Only the writers of a unit change it: the conclusion of O27 for one instruction and two states. -/
abbrev OnlyWritersChange (i : Instr) (s t : State) : Prop :=
  (t.i ≠ s.i → (∃ n, i = .ldI n) ∨ ∃ x, i = .addI x ∨ i = .ldF x) ∧
  ((∃ a, t.peek a ≠ s.peek a) → ∃ x, i = .ldB x ∨ i = .ldMemVx x) ∧
  (t.disp ≠ s.disp → i = .cls ∨ ∃ x y n, i = .drw x y n) ∧
  (t.dt ≠ s.dt → ∃ x, i = .ldDTVx x) ∧
  (t.st ≠ s.st → ∃ x, i = .ldSTVx x)

/-- A state with the same five units. -/
theorem onlyWritersChange_of_same (hi : t.i = s.i) (hmem : ∀ a, t.peek a = s.peek a) (hdisp : t.disp = s.disp)
    (hdt : t.dt = s.dt) (hst : t.st = s.st) : OnlyWritersChange i s t :=
  ⟨fun h => absurd hi h, fun ⟨a, h⟩ => absurd (hmem a) h, fun h => absurd hdisp h, fun h => absurd hdt h,
    fun h => absurd hst h⟩

theorem Writes.onlyWritersChange (h : Writes s i u n) : OnlyWritersChange i s u := by
  cases h with
  | registers | jump | jumpV0 => exact onlyWritersChange_of_same rfl (fun _ => rfl) rfl rfl rfl
  | call m _ _ hpush =>
    obtain ⟨-, rfl⟩ := State.push_eq_ok.1 hpush
    exact onlyWritersChange_of_same rfl (fun _ => rfl) rfl rfl rfl
  | ret a _ _ hpop =>
    obtain ⟨-, -, rfl⟩ := State.pop_eq_ok.1 hpop
    exact onlyWritersChange_of_same rfl (fun _ => rfl) rfl rfl rfl
  | index w hi => exact ⟨fun _ => hi, by simp, by simp, by simp, by simp⟩
  | delay b hi => exact ⟨by simp, by simp, by simp, fun _ => hi, by simp⟩
  | sound b hi => exact ⟨by simp, by simp, by simp, by simp, fun _ => hi⟩
  | display d v hi =>
    exact ⟨fun h => absurd rfl h, fun ⟨_, h⟩ => absurd rfl h, fun _ => hi, fun h => absurd rfl h, fun h => absurd rfl h⟩
  | store a bs hin hi =>
    rw [(State.pokeBytes_frame bs s a).1]
    exact ⟨fun h => absurd rfl h, fun _ => hi, fun h => absurd rfl h, fun h => absurd rfl h, fun h => absurd rfl h⟩

/-! Errors. -/

/-- The errors of an instruction's own, and which instruction raises each (60_exceptions section 2). -/
theorem effect_eq_error (h : i.effect s = .error e) :
    (e = .stackOverflow ∧ ∃ n, i = .call n) ∨
    (e = .stackUnderflow ∧ i = .ret) ∨
    (e = .invalidFontIndex ∧ ∃ x, i = .ldF x) ∨
    (e = .memoryOutOfBounds ∧
      ((∃ x y n, i = .drw x y n) ∨ ∃ x, i = .ldB x ∨ i = .ldMemVx x ∨ i = .ldVxMem x)) ∨
    (e = .invalidKeyIndex ∧ ∃ x, i = .skp x ∨ i = .sknp x) := by
  cases i with
  | sys | ldImm | addImm | ldReg | orReg | andReg | xorReg | addReg | subReg | shr | subnReg | shl | rnd | ldVxDT
  | ldVxK | seImm | sneImm | seReg | sneReg | ldI | addI | ldDTVx | ldSTVx | cls | jp | jpV0 => cases h
  | call m =>
    have hpush := map_eq_error.1 h
    simp only [State.push] at hpush
    split at hpush <;> cases hpush
    exact .inl ⟨rfl, m, rfl⟩
  | ret =>
    have hpop := map_eq_error.1 h
    simp only [State.pop] at hpop
    split at hpop <;> cases hpop
    exact .inr (.inl ⟨rfl, rfl⟩)
  | ldF x =>
    simp only [Instr.effect] at h
    split at h <;> cases h
    exact .inr (.inr (.inl ⟨rfl, x, rfl⟩))
  | drw x y m =>
    have hread := map_eq_error.1 h
    rw [State.readBytes_spec] at hread
    split at hread <;> cases hread
    exact .inr (.inr (.inr (.inl ⟨rfl, .inl ⟨x, y, m, rfl⟩⟩)))
  | ldVxMem x =>
    have hread := map_eq_error.1 h
    rw [State.readBytes_spec] at hread
    split at hread <;> cases hread
    exact .inr (.inr (.inr (.inl ⟨rfl, .inr ⟨x, .inr (.inr rfl)⟩⟩)))
  | ldB x =>
    have hwrite := map_eq_error.1 h
    rw [State.writeBytes_spec] at hwrite
    split at hwrite <;> cases hwrite
    exact .inr (.inr (.inr (.inl ⟨rfl, .inr ⟨x, .inl rfl⟩⟩)))
  | ldMemVx x =>
    have hwrite := map_eq_error.1 h
    rw [State.writeBytes_spec] at hwrite
    split at hwrite <;> cases hwrite
    exact .inr (.inr (.inr (.inl ⟨rfl, .inr ⟨x, .inr (.inl rfl)⟩⟩)))
  | skp x =>
    simp only [Instr.effect] at h
    split at h <;> cases h
    exact .inr (.inr (.inr (.inr ⟨rfl, x, .inl rfl⟩)))
  | sknp x =>
    simp only [Instr.effect] at h
    split at h <;> cases h
    exact .inr (.inr (.inr (.inr ⟨rfl, x, .inr rfl⟩)))

theorem effect_error_haltsStep (h : i.effect s = .error e) : e.haltsStep = true := by
  obtain ⟨rfl, -⟩ | ⟨rfl, -⟩ | ⟨rfl, -⟩ | ⟨rfl, -⟩ | ⟨rfl, -⟩ := effect_eq_error h <;> rfl

theorem nextPC_error_haltsStep (h : s.nextPC n = .error e) : e.haltsStep = true := by
  obtain ⟨rfl, -⟩ | ⟨rfl, -⟩ := State.nextPC_eq_error.1 h <;> rfl

/-- An instruction leaves `status` alone or commits nothing and halts with an error that ends a session. -/
theorem exec_status_or_halt (h : exec i s = .next t) :
    t.status = s.status ∨ ∃ e : EngineError, e.haltsStep = true ∧ t = s.halt e := by
  obtain ⟨u, n, hu, -, -, -, rfl⟩ | ⟨e, he, rfl⟩ | ⟨u, n, e, -, he, rfl⟩ | ⟨-, -, rfl⟩ := exec_cases h
  · obtain ⟨hstatus, -⟩ := (writes_of_effect hu).status_cfg
    exact .inl hstatus
  · exact .inr ⟨e, effect_error_haltsStep he, rfl⟩
  · exact .inr ⟨e, nextPC_error_haltsStep he, rfl⟩
  · exact .inl rfl

/-! Targets of NextPC. -/

/-- In a session only a jump or a call gives NextPC an odd target. -/
theorem Writes.target_even (hs : s.Inv) (h : Writes s i u n) :
    n % 2 = 0 ∨ ∃ m, i = .jp m ∨ i = .call m ∨ i = .jpV0 m := by
  obtain ⟨heven, -⟩ := hs.pc
  cases h with
  | registers v k hk => exact .inl (by omega)
  | index | delay | sound | display | store => exact .inl (by omega)
  | jump m hi => exact .inr ⟨m, .inl hi⟩
  | jumpV0 m _ hi => exact .inr ⟨m, .inr (.inr hi)⟩
  | call m _ hi => exact .inr ⟨m, .inr (.inl hi)⟩
  | ret a _ _ hpop =>
    obtain ⟨hsp, rfl, -⟩ := State.pop_eq_ok.1 hpop
    obtain ⟨-, hbot, -⟩ := hs.stack
    obtain ⟨hslot, -⟩ := hs.returns s.sp.toNat (by omega)
    exact .inl hslot

/-- The target of 1NNN and 2NNN is an address of 12 bits. -/
theorem effect_target_lt {m : Addr12} (hi : i = .jp m ∨ i = .call m) (h : i.effect s = .ok (u, n)) : n < 0x1000 := by
  obtain rfl | rfl := hi
  · cases h
    exact m.isLt
  · obtain ⟨w, -, hpair⟩ := map_eq_ok.1 h
    cases hpair
    exact m.isLt

/-- Every instruction answers a next state. -/
theorem exec_answers (i : Instr) (s : State) : ∃ t, exec i s = .next t := by
  by_cases hblock : (∃ x, i = .ldVxK x) ∧ s.keys = 0
  · obtain ⟨⟨x, rfl⟩, hzero⟩ := hblock
    exact ⟨_, exec_ldVxK_blocked x hzero⟩
  · rw [exec_eq_complete fun x hx hzero => hblock ⟨⟨x, hx⟩, hzero⟩]
    cases (i.effect s).bind fun p => p.1.nextPC p.2 <;> exact ⟨_, rfl⟩

end Sys2Proof.Machine

namespace Sys2Proof

open Machine

/-- Settles O27: before NextPC only its writers change a unit; NextPC, a halt and the wait for a key change none. -/
theorem writersOfEachUnit : Obligations.WritersOfEachUnit := by
  intro i s t h
  obtain ⟨u, n, hu, rfl⟩ | ⟨e, rfl⟩ | rfl := exec_ends h
  · exact (writes_of_effect hu).onlyWritersChange
  · exact onlyWritersChange_of_same rfl (fun _ => rfl) rfl rfl rfl
  · exact onlyWritersChange_of_same rfl (fun _ => rfl) rfl rfl rfl

/-- Settles O22: the fatal errors of an instruction are its own and those of NextPC, and a halt is `State.halt`. -/
theorem fatalErrorCommitsNothing : Obligations.FatalErrorCommitsNothing := by
  intro i s t hrun h
  obtain hstatus | ⟨e, he, rfl⟩ := exec_status_or_halt h
  · exact .inl (hstatus.trans hrun)
  · exact .inr ⟨e, he, rfl⟩

/-- Settles O23: an error is the instruction's own, or NextPC refused the target: one out of range, which a 12-bit
address is not, or an odd one, which only a jump or a call gives. -/
theorem errorsByInstruction : Obligations.ErrorsByInstruction := by
  intro i s t e hs h hreport
  obtain ⟨u, n, -, -, -, -, rfl⟩ | ⟨e', he, rfl⟩ | ⟨u, n, e', hu, he, rfl⟩ | ⟨-, -, rfl⟩ := exec_cases h
  · cases hreport
  · cases hreport
    obtain hcall | hret | hfont | hmem | hkey := effect_eq_error he
    · exact .inr (.inl hcall)
    · exact .inr (.inr (.inl hret))
    · exact .inr (.inr (.inr (.inl hfont)))
    · exact .inr (.inr (.inr (.inr (.inr (.inl hmem)))))
    · exact .inr (.inr (.inr (.inr (.inr (.inr hkey)))))
  · cases hreport
    obtain ⟨rfl, hge⟩ | ⟨rfl, -, hodd⟩ := State.nextPC_eq_error.1 he
    · have hlt (m : Addr12) (hi : i = .jp m ∨ i = .call m) : False :=
        absurd (effect_target_lt hi hu) (Nat.not_lt.2 hge)
      exact .inl ⟨rfl, fun m => ⟨fun hi => hlt m (.inl hi), fun hi => hlt m (.inr hi)⟩⟩
    · obtain heven | hjump := (writes_of_effect hu).target_even hs
      · omega
      · exact .inr (.inr (.inr (.inr (.inl ⟨rfl, hjump⟩))))
  · cases hreport

/-- Settles O28: a completed instruction returns its own tag, and the wait for a key is the one other outcome. -/
theorem tagOfEachInstruction : Obligations.TagOfEachInstruction := by
  intro i s t g h hreport
  obtain ⟨u, n, -, -, -, hkey, rfl⟩ | ⟨e, -, rfl⟩ | ⟨u, n, e, -, -, rfl⟩ | ⟨hi, hzero, rfl⟩ := exec_cases h
  · cases hreport
    cases i with
    | cls => exact .inl ⟨rfl, .inl rfl⟩
    | drw x y m => exact .inl ⟨rfl, .inr ⟨x, y, m, rfl⟩⟩
    | skp x => exact .inr (.inl ⟨rfl, x, .inl rfl⟩)
    | sknp x => exact .inr (.inl ⟨rfl, x, .inr rfl⟩)
    | ldVxK x => exact .inr (.inr (.inr ⟨rfl, nofun, nofun, fun _ => ⟨nofun, nofun⟩, fun hzero =>
        absurd hzero (hkey x rfl)⟩))
    | _ => exact .inr (.inr (.inr ⟨rfl, nofun, nofun, fun _ => ⟨nofun, nofun⟩, fun _ _ => nofun⟩))
  · cases hreport
  · cases hreport
  · cases hreport
    exact .inr (.inr (.inl ⟨rfl, hzero, hi⟩))

end Sys2Proof
end

section
/-! PROOFS. The transactions: how each steps (00_scope R7, 70_reset R305), everything a step can do, and the invariant
of a session along every step. -/

namespace Sys2Proof.Machine

variable {s t u : State} {rest : List Transaction} {w : Word} {i : Instr} {e : EngineError}

/-! Each transaction of a live session. -/

theorem State.whenRunning_of_running (h : s.status = .running) (r : Result) : s.whenRunning r = r := by
  rw [State.whenRunning, h]

theorem State.whenRunning_of_halted (h : s.status = .halted e) (r : Result) :
    s.whenRunning r = .fault (.sessionHalted e) := by
  rw [State.whenRunning, h]

/-- A Step in a live session. -/
theorem step_of_stepIsNext (hs : s.Live) (hnext : s.stepIsNext = true) :
    step s = mapNext State.consume (runStep s) := by
  obtain ⟨hrun, hlive⟩ := hs
  rw [step, transact, hlive]
  cases hp : s.pending with
  | nil => simp [State.whenRunning_of_running hrun]
  | cons a q =>
    cases a with
    | step => simp [State.whenRunning_of_running hrun]
    | tick | skipUnknown | destroy => simp [State.stepIsNext, hp] at hnext

theorem step_skipUnknown_of_live (hs : s.Live) (hp : s.pending = .skipUnknown :: rest) :
    step s = mapNext State.consume (skipUnknown s) := by
  obtain ⟨hrun, hlive⟩ := hs
  simp [step, transact, hlive, hp, State.whenRunning_of_running hrun]

theorem step_destroy (hd : s.destroyed = false) (hp : s.pending = .destroy :: rest) :
    step s = .next { s.destroy with pending := rest } := by
  simp [step, transact, hd, hp, State.consume]

theorem step_of_destroyed (hd : s.destroyed = true) : step s = .fault .sessionDestroyed := by
  simp [step, transact, hd]

/-- In a Halted session only Destroy applies (60_exceptions R263). -/
theorem step_of_halted (hh : s.status = .halted e) (hd : s.destroyed = false)
    (hp : ∀ rest, s.pending ≠ .destroy :: rest) : step s = .fault (.sessionHalted e) := by
  rw [step, transact, hd]
  cases hq : s.pending with
  | nil => simp [State.whenRunning_of_halted hh, mapNext]
  | cons a q =>
    cases a with
    | destroy => exact absurd hq (hp q)
    | step | tick | skipUnknown => simp [State.whenRunning_of_halted hh, mapNext]

/-! What a Step runs. -/

theorem decode_pair {hi lo : Byte} : decode [hi, lo] = .ok (i, []) ↔ decodeWord (wordOfBytes hi lo) = .ok i := by
  simp only [decode]
  cases decodeWord (wordOfBytes hi lo) <;> simp

theorem runStep_of_decode (hpc : s.pc.toNat ≤ 0xFFE)
    (h : decode [s.peek s.pc.toNat, s.peek (s.pc.toNat + 1)] = .ok (i, [])) : runStep s = exec i s := by
  rw [runStep, s.fetch_of_le hpc]
  simp [decode_pair.1 h]

theorem runStep_of_unknown (hf : s.fetch = .ok w) (hd : decodeWord w = .error (.unknownOpcode w)) :
    runStep s = .next (s.returns .unknown) := by
  simp [runStep, hf, hd]

/-- Everything a Step can do: halt on the fetch, run an instruction, or return Unknown with nothing changed. -/
theorem runStep_cases (h : runStep s = .next t) :
    (∃ e, s.fetch = .error e ∧ t = s.halt e) ∨ (∃ i, exec i s = .next t) ∨ t = s.returns .unknown := by
  unfold runStep at h
  split at h
  case h_1 e he => exact .inl ⟨e, he, (Host.Outcome.next.inj h).symm⟩
  case h_2 w hw =>
    split at h
    case h_1 i hi => exact .inr (.inl ⟨i, h⟩)
    case h_2 => exact .inr (.inr (Host.Outcome.next.inj h).symm)

theorem runStep_answers (s : State) : ∃ t, runStep s = .next t := by
  unfold runStep
  split
  case h_1 => exact ⟨_, rfl⟩
  case h_2 =>
    split
    case h_1 i _ => exact exec_answers i s
    case h_2 => exact ⟨_, rfl⟩

theorem memRead_eq_error {a : Nat} (h : s.memRead a = .error e) : e = .memoryOutOfBounds := by
  unfold State.memRead at h
  split at h <;> cases h
  rfl

/-- The error of a fetch is that of a memory access. -/
theorem fetch_eq_error (h : s.fetch = .error e) : e = .memoryOutOfBounds := by
  unfold State.fetch at h
  cases hhi : s.memRead s.pc.toNat with
  | error e' =>
    rw [hhi] at h
    cases h
    exact memRead_eq_error hhi
  | ok hi =>
    cases hlo : s.memRead (s.pc.toNat + 1) with
    | error e' =>
      rw [hhi, hlo] at h
      cases h
      exact memRead_eq_error hlo
    | ok lo =>
      rw [hhi, hlo] at h
      cases h

/-! SkipUnknown. -/

theorem skipUnknown_of_room (hmay : s.maySkipUnknown = true) (hroom : s.RoomFor 2) :
    skipUnknown s = .next { s.atPc (s.pc.toNat + 2) with report := .nothing } := by
  simp [skipUnknown, hmay, State.advance_of_room s hroom]

theorem skipUnknown_outOfRange (hmay : s.maySkipUnknown = true) (hge : 0x1000 ≤ s.pc.toNat + 2) :
    skipUnknown s = .next (s.halt .pcOutOfRange) := by
  simp [skipUnknown, hmay, State.advance, State.nextPC_outOfRange s hge]

theorem skipUnknown_refused (hmay : s.maySkipUnknown = false) :
    skipUnknown s = .refused .skipUnknownNotAllowed := by
  simp [skipUnknown, hmay]

/-- Everything SkipUnknown can do: move pc to an even address inside memory, or halt on a NextPC error. -/
theorem skipUnknown_cases (h : skipUnknown s = .next t) :
    (∃ n, n < 0x1000 ∧ n % 2 = 0 ∧ t = { s.atPc n with report := .nothing }) ∨
    (∃ n e, s.nextPC n = .error e ∧ t = s.halt e) := by
  unfold skipUnknown at h
  split at h
  case isFalse => cases h
  case isTrue =>
    split at h
    case h_1 u hu =>
      obtain ⟨hlt, heven, rfl⟩ := State.nextPC_eq_ok.1 hu
      exact .inl ⟨_, hlt, heven, (Host.Outcome.next.inj h).symm⟩
    case h_2 e he => exact .inr ⟨_, e, he, (Host.Outcome.next.inj h).symm⟩

/-- Everything a step can do: one transaction, and then the host's next one comes first. -/
theorem step_cases (h : step s = .next t) :
    ∃ u, t = u.consume ∧ (u = s.destroy ∨ u = s.tick ∨ skipUnknown s = .next u ∨ runStep s = .next u) := by
  have hrunning {r : Result} {u : State} (hr : s.whenRunning r = .next u) : r = .next u := by
    cases hstatus : s.status with
    | running => rwa [State.whenRunning_of_running hstatus] at hr
    | halted e => simp [State.whenRunning_of_halted hstatus] at hr
  rw [step, transact] at h
  split at h
  case isTrue => cases h
  case isFalse =>
    obtain ⟨u, hu, rfl⟩ := mapNext_eq_next.1 h
    refine ⟨u, rfl, ?_⟩
    split at hu
    case h_1 => exact .inl (Host.Outcome.next.inj hu).symm
    case h_2 => exact .inr (.inl (Host.Outcome.next.inj (hrunning hu)).symm)
    case h_3 => exact .inr (.inr (.inl (hrunning hu)))
    case h_4 | h_5 => exact .inr (.inr (.inr (hrunning hu)))

/-! The parameters. -/

theorem exec_cfg (h : exec i s = .next t) : t.cfg = s.cfg := by
  obtain ⟨u, n, hu, rfl⟩ | ⟨e, rfl⟩ | rfl := exec_ends h
  · obtain ⟨-, hcfg⟩ := (writes_of_effect hu).status_cfg
    exact hcfg
  · rfl
  · rfl

theorem runStep_cfg (h : runStep s = .next t) : t.cfg = s.cfg := by
  obtain ⟨e, -, rfl⟩ | ⟨i, hi⟩ | rfl := runStep_cases h
  · rfl
  · exact exec_cfg hi
  · rfl

theorem skipUnknown_cfg (h : skipUnknown s = .next t) : t.cfg = s.cfg := by
  obtain ⟨n, -, -, rfl⟩ | ⟨n, e, -, rfl⟩ := skipUnknown_cases h <;> rfl

/-! The invariant, along each way to go on. -/

theorem toNat_ofNat16 {n : Nat} (h : n < 0x10000) : (BitVec.ofNat 16 n).toNat = n :=
  (BitVec.toNat_ofNat n 16).trans (Nat.mod_eq_of_lt h)

theorem State.slot_of_stack_eq_set_ne {a : Word} {j k : Nat} (h : u.stack = s.stack.set k a) (hne : j ≠ k) :
    u.slot j = s.slot j := by
  rw [State.slot, State.slot, h, List.getD_eq_getElem?_getD, List.getD_eq_getElem?_getD,
    List.getElem?_set_ne hne.symm]

theorem State.Inv.atPc (hs : s.Inv) {n : Nat} (hlt : n < 0x1000) (heven : n % 2 = 0) : (s.atPc n).Inv where
  cfg := hs.cfg
  pc := by
    rw [State.PcOk, State.atPc_pc, toNat_ofNat16 (by omega)]
    omega
  stack := hs.stack
  returns := hs.returns
  status := hs.status
  mem := hs.mem

theorem State.Inv.withReport (hs : s.Inv) (r : Report) : State.Inv { s with report := r } :=
  ⟨hs.cfg, hs.pc, hs.stack, hs.returns, hs.status, hs.mem⟩

theorem State.Inv.halt (hs : s.Inv) (he : e.haltsStep = true) : (s.halt e).Inv :=
  ⟨hs.cfg, hs.pc, hs.stack, hs.returns, he, hs.mem⟩

theorem State.Inv.tick (hs : s.Inv) : s.tick.Inv := ⟨hs.cfg, hs.pc, hs.stack, hs.returns, hs.status, hs.mem⟩

theorem State.Inv.destroy (hs : s.Inv) : s.destroy.Inv := ⟨hs.cfg, hs.pc, hs.stack, hs.returns, hs.status, hs.mem⟩

theorem State.Inv.consume (hs : s.Inv) : s.consume.Inv := by
  unfold State.consume
  split <;> exact ⟨hs.cfg, hs.pc, hs.stack, hs.returns, hs.status, hs.mem⟩

/-- The address pushed is an even pc plus 2 (40_control_flow R100). -/
theorem State.Inv.push (hs : s.Inv) (h : s.push (BitVec.ofNat 16 (s.pc.toNat + 2)) = .ok u) : u.Inv := by
  obtain ⟨hfree, rfl⟩ := State.push_eq_ok.1 h
  obtain ⟨hlen, hbot, -⟩ := hs.stack
  obtain ⟨heven, hpc⟩ := hs.pc
  refine ⟨hs.cfg, hs.pc, ⟨?stack, ?bot, ?top⟩, ?returns, hs.status, hs.mem⟩
  case stack => exact (List.length_set ..).trans hlen
  case bot => change -1 ≤ s.sp + 1; omega
  case top => change s.sp + 1 + 1 ≤ s.cfg.stackCapacity; omega
  case returns =>
    intro k (hk : k < (s.sp + 1 + 1).toNat)
    by_cases htop : k = (s.sp + 1).toNat
    · subst htop
      have haddr : (BitVec.ofNat 16 (s.pc.toNat + 2)).toNat = s.pc.toNat + 2 := toNat_ofNat16 (by omega)
      rw [State.slot_of_stack_eq_set (s := s) rfl (by omega), haddr]
      omega
    · rw [State.slot_of_stack_eq_set_ne (s := s) rfl htop]
      exact hs.returns k (by omega)

theorem State.Inv.pop {a : Word} (hs : s.Inv) (h : s.pop = .ok (a, u)) : u.Inv := by
  obtain ⟨hsp, -, rfl⟩ := State.pop_eq_ok.1 h
  obtain ⟨hlen, hbot, htop⟩ := hs.stack
  refine ⟨hs.cfg, hs.pc, ⟨hlen, ?bot, ?top⟩, fun k hk => hs.returns k ?_, hs.status, hs.mem⟩
  case bot => change -1 ≤ s.sp - 1; omega
  case top => change s.sp - 1 + 1 ≤ s.cfg.stackCapacity; omega
  · change k < (s.sp - 1 + 1).toNat at hk
    omega

theorem State.memOk_pokeBytes {a : Nat} {bs : List Byte} (hs : s.MemOk) (hin : bs = [] ∨ a + bs.length ≤ 0x1000) :
    (s.pokeBytes a bs).MemOk := by
  obtain rfl | hin := hin
  · exact hs
  · exact (State.pokeBytes_spec bs s a hin hs).1

theorem State.Inv.pokeBytes {a : Nat} {bs : List Byte} (hs : s.Inv) (hin : bs = [] ∨ a + bs.length ≤ 0x1000) :
    (s.pokeBytes a bs).Inv := by
  have hmem := State.memOk_pokeBytes hs.mem hin
  rw [(State.pokeBytes_frame bs s a).1] at hmem ⊢
  exact ⟨hs.cfg, hs.pc, hs.stack, hs.returns, hs.status, hmem⟩

/-- No write breaks the invariant; pc is still the instruction's own. -/
theorem Writes.inv {n : Nat} (hs : s.Inv) (h : Writes s i u n) : u.Inv := by
  cases h with
  | registers | index | delay | sound | display =>
    exact ⟨hs.cfg, hs.pc, hs.stack, hs.returns, hs.status, hs.mem⟩
  | jump | jumpV0 => exact hs
  | store a bs hin => exact hs.pokeBytes hin
  | call m _ _ hpush => exact hs.push hpush
  | ret a _ _ hpop => exact hs.pop hpop

theorem exec_inv (hs : s.Inv) (h : exec i s = .next t) : t.Inv := by
  obtain ⟨u, n, hu, hlt, heven, -, rfl⟩ | ⟨e, he, rfl⟩ | ⟨u, n, e, -, he, rfl⟩ | ⟨-, -, rfl⟩ := exec_cases h
  · exact (((writes_of_effect hu).inv hs).atPc hlt heven).withReport _
  · exact hs.halt (effect_error_haltsStep he)
  · exact hs.halt (nextPC_error_haltsStep he)
  · exact hs.withReport _

theorem runStep_inv (hs : s.Inv) (h : runStep s = .next t) : t.Inv := by
  obtain ⟨e, he, rfl⟩ | ⟨i, hi⟩ | rfl := runStep_cases h
  · exact hs.halt (by rw [fetch_eq_error he]; rfl)
  · exact exec_inv hs hi
  · exact hs.withReport _

theorem skipUnknown_inv (hs : s.Inv) (h : skipUnknown s = .next t) : t.Inv := by
  obtain ⟨n, hlt, heven, rfl⟩ | ⟨n, e, he, rfl⟩ := skipUnknown_cases h
  · exact (hs.atPc hlt heven).withReport _
  · exact hs.halt (nextPC_error_haltsStep he)

theorem State.Inv.fresh {c : Config} (hc : c.wf = true) : (State.fresh c).Inv where
  cfg := hc
  pc := (by decide : (0x0200 : Word).toNat % 2 = 0 ∧ (0x0200 : Word).toNat ≤ 0xFFE)
  stack := ⟨List.length_replicate, le_refl (-1), by simp [State.fresh]⟩
  returns := fun k hk => by simp [State.fresh] at hk
  status := trivial
  mem := State.memOk_fresh c

/-! Runs. -/

theorem run_succ (n : Nat) (h : step s = .next u) :
    Host.Core.run core (n + 1) s = Host.Core.run core n u := by
  have hstep : core.step s = .next u := h
  simp only [Host.Core.run, hstep]

end Sys2Proof.Machine

namespace Sys2Proof

open Machine

/-- Settles O17: every transaction goes on from the state by writes, a move of pc that NextPC accepted, a halt, or a new
report, and each of these keeps the invariant. -/
theorem stepKeepsInvariant : Obligations.StepKeepsInvariant := by
  intro s t hs h
  obtain ⟨u, rfl, rfl | rfl | hskip | hstep⟩ := step_cases h
  · exact hs.destroy.consume
  · exact hs.tick.consume
  · exact (skipUnknown_inv hs hskip).consume
  · exact (runStep_inv hs hstep).consume

/-- Settles O18: the reset state is fresh, with a positive capacity. -/
theorem resetHasInvariant : Obligations.ResetHasInvariant := State.Inv.fresh (by decide)

/-- Settles O19: a created state is fresh but for the ROM, which is written inside memory. -/
theorem createEstablishesInvariant : Obligations.CreateEstablishesInvariant := by
  intro c rom t hc h
  obtain ⟨hlen, rfl⟩ := State.create_eq_ok.1 h
  exact (State.Inv.fresh hc).pokeBytes (.inr (by omega))

/-- Settles O20: no transaction writes the parameters. -/
theorem stepKeepsParameters : Obligations.StepKeepsParameters := by
  intro s t h
  obtain ⟨u, rfl, hu⟩ := step_cases h
  rw [State.consume_cfg]
  obtain rfl | rfl | hskip | hstep := hu
  · rfl
  · rfl
  · exact skipUnknown_cfg hskip
  · exact runStep_cfg hstep

/-- Settles O21: every instruction answers, so every Step does, and Tick and Destroy always do. -/
theorem liveSessionAlwaysAnswers : Obligations.LiveSessionAlwaysAnswers := by
  refine ⟨exec_answers, fun s hs hskip => ?_⟩
  by_cases hnext : s.stepIsNext = true
  · obtain ⟨t, ht⟩ := runStep_answers s
    rw [step_of_stepIsNext hs hnext, ht]
    exact ⟨_, rfl⟩
  · cases hp : s.pending with
    | nil => simp [State.stepIsNext, hp] at hnext
    | cons a q =>
      cases a with
      | step => simp [State.stepIsNext, hp] at hnext
      | tick => exact ⟨_, step_tick_of_live hs hp⟩
      | skipUnknown => exact absurd hp (hskip q)
      | destroy => exact ⟨_, step_destroy hs.2 hp⟩

/-- Settles O6: in a live session a Step that is next runs, and it runs the instruction fetched at pc. -/
theorem stepRunsDecodedInstruction : Obligations.StepRunsDecodedInstruction := by
  intro s i hs hnext hpc hd
  rw [step_of_stepIsNext hs hnext, runStep_of_decode hpc hd]

/-- Settles O9: a Halted session admits Destroy alone, and a destroyed one nothing. -/
theorem sessionEnds : Obligations.SessionEnds :=
  ⟨fun _ _ hh hd hp => step_of_halted hh hd hp,
    fun _ _ hd hp => ⟨_, step_destroy hd hp, rfl, step_of_destroyed rfl⟩⟩

end Sys2Proof
end

section
/-! PROOFS. Runs of transactions: unknown words (60_exceptions R265, R266), Ticks (R276), and the wait in FX0A
(44_timer_input R241, R242). -/

namespace Sys2Proof.Machine

variable {s t : State} {rest : List Transaction} {w : Word} {x : Reg}

/-- An unknown word leaves everything but the report, and the host's next transaction comes first. -/
theorem step_of_unknown (hs : s.Live) (hnext : s.stepIsNext = true) (hf : s.fetch = .ok w)
    (hd : decodeWord w = .error (.unknownOpcode w)) : step s = .next (s.returns .unknown).consume := by
  rw [step_of_stepIsNext hs hnext, runStep_of_unknown hf hd, mapNext_next]

/-- The host's list and the count of free draws are all that goes on. -/
theorem State.consume_frame (s : State) :
    s.consume = { s with pending := s.consume.pending, draws := s.consume.draws } := by
  unfold State.consume
  split <;> rfl

/-- One Step of FX0A with no key down. -/
theorem step_keyWait {r : Byte} (hs : s.Live) (hp : s.pending = .step 0 r :: rest) (hpc : s.pc.toNat ≤ 0xFFE)
    (hd : decode [s.peek s.pc.toNat, s.peek (s.pc.toNat + 1)] = .ok (.ldVxK x, [])) :
    step s = .next { s with report := .outcome .keyWaitBlocked, pending := rest } := by
  have hnext : s.stepIsNext = true := by rw [State.stepIsNext, hp]
  have hkeys : s.keys = 0 := by rw [State.keys, hp]
  rw [step_of_stepIsNext hs hnext, runStep_of_decode hpc hd, exec_ldVxK_blocked x hkeys, mapNext_next]
  simp [State.consume, hp, State.returns]

end Sys2Proof.Machine

namespace Sys2Proof

open Machine

/-- Settles O7: the state after an unknown word has the same pc and memory and is still running, so the word is unknown
again. -/
theorem unknownWordChangesNothing : Obligations.UnknownWordChangesNothing := by
  refine ⟨rfl, rfl, fun s w hs hnext hf hd => ?_⟩
  refine ⟨_, step_of_unknown hs hnext hf hd, State.consume_frame _, fun hnext' => ?_⟩
  rw [State.consume_frame] at hnext' ⊢
  exact ⟨_, step_of_unknown hs hnext' hf hd, State.consume_frame _⟩

/-- Settles O11: each Tick counts both timers down, by induction on the number of Ticks. -/
theorem timersAfterTicks : Obligations.TimersAfterTicks := by
  intro n
  induction n with
  | zero =>
    intro s rest _ hp
    have hp' : s.pending = rest := hp
    exact ⟨s, rfl, by rw [← hp'], rfl, rfl⟩
  | succ n ih =>
    intro s rest hs hp
    obtain ⟨t, ht, hframe, hdt, hst⟩ := ih { s.tick with pending := List.replicate n .tick ++ rest } rest hs rfl
    refine ⟨t, (run_succ n (step_tick_of_live hs hp)).trans ht, hframe, ?_, ?_⟩
    · change t.dt.toNat = (countDown s.dt).toNat - n at hdt
      rw [hdt, countDown_toNat]
      omega
    · change t.st.toNat = (countDown s.st).toNat - n at hst
      rw [hst, countDown_toNat]
      omega

/-- Settles O12: where the host may issue it, SkipUnknown is the advance by 2. -/
theorem skipUnknownPassesTheWord : Obligations.SkipUnknownPassesTheWord := by
  intro s rest hs hp
  rw [step_skipUnknown_of_live hs hp]
  refine ⟨fun hpol hrep hroom => ?_, fun hpol hrep hge => ?_, fun hno => ?_⟩
  · rw [skipUnknown_of_room (by simp [State.maySkipUnknown, hpol, hrep]) hroom, mapNext_next]
    simp [State.consume, hp, State.atPc]
  · rw [skipUnknown_outOfRange (by simp [State.maySkipUnknown, hpol, hrep]) hge, mapNext_next]
    simp [State.consume, hp, State.halt]
  · have hmay : s.maySkipUnknown = false := by
      obtain hpol | hrep := hno
      · simp [State.maySkipUnknown, hpol]
      · simp [State.maySkipUnknown, hrep]
    rw [skipUnknown_refused hmay]
    rfl

/-- Settles O13: a Step with no key leaves pc and memory, so the next Step finds the same FX0A; a Tick counts the timers
down and leaves them too. By induction on the schedule. -/
theorem keyWaitHoldsWhileTimersTick : Obligations.KeyWaitHoldsWhileTimersTick := by
  intro l
  induction l with
  | nil =>
    intro s x rest _ _ _ _ hp
    have hp' : s.pending = rest := hp
    exact ⟨s, rfl, by rw [← hp'], rfl, rfl⟩
  | cons a l ih =>
    intro s x rest hs hpc hd hl hp
    have hl' : ∀ t ∈ l, t = .tick ∨ ∃ r, t = .step 0 r := fun t ht => hl t (List.mem_cons_of_mem a ht)
    obtain rfl | ⟨r, rfl⟩ := hl a List.mem_cons_self
    · obtain ⟨t, ht, hframe, hdt, hst⟩ := ih { s.tick with pending := l ++ rest } x rest hs hpc hd hl' rfl
      refine ⟨t, (run_succ _ (step_tick_of_live hs hp)).trans ht, hframe, ?_, ?_⟩
      · change t.dt.toNat = (countDown s.dt).toNat - _ at hdt
        rw [hdt, countDown_toNat, List.count_cons_self]
        omega
      · change t.st.toNat = (countDown s.st).toNat - _ at hst
        rw [hst, countDown_toNat, List.count_cons_self]
        omega
    · obtain ⟨t, ht, hframe, hdt, hst⟩ :=
        ih { s with report := .outcome .keyWaitBlocked, pending := l ++ rest } x rest hs hpc hd hl' rfl
      have hcount : (Transaction.step 0 r :: l).count .tick = l.count .tick := List.count_cons_of_ne (by simp)
      rw [hcount]
      exact ⟨t, (run_succ _ (step_keyWait hs hp hpc hd)).trans ht, hframe, hdt, hst⟩

/-- Settles O16: an empty ROM writes nothing, so Create answers the fresh state. -/
theorem resetIsCreateOfEmptyRom : Obligations.ResetIsCreateOfEmptyRom := by
  refine ⟨State.create_eq_ok.2 ⟨Nat.zero_le _, rfl⟩, rfl, rfl, rfl, ?_, ?_⟩ <;> decide

end Sys2Proof
end

section
/-! PROOFS. Errors in order (60_exceptions R268, D14): an instruction's own error before a pc that leaves memory (D7),
and the effect of the instructions whose operands or memory decide it. -/

namespace Sys2Proof.Machine

variable {s t u : State} {i : Instr} {n a : Nat} {e : EngineError} {bs : List Byte}

theorem State.effAddr_zero (s : State) : s.effAddr 0 = s.i.toNat := rfl

/-! Accesses inside memory, and beyond it. -/

theorem State.readBytes_of_le (s : State) (h : n = 0 ∨ a + n ≤ 0x1000) :
    s.readBytes a n = .ok ((List.range n).map fun k => s.peek (a + k)) :=
  (s.readBytes_spec n a).trans (if_pos h)

theorem State.readBytes_outOfBounds (s : State) (hn : 0 < n) (h : 0x1000 < a + n) :
    s.readBytes a n = .error .memoryOutOfBounds :=
  (s.readBytes_spec n a).trans (if_neg (by omega))

theorem State.writeBytes_of_le (s : State) (h : a + bs.length ≤ 0x1000) : s.writeBytes a bs = .ok (s.pokeBytes a bs) :=
  State.writeBytes_eq_ok.2 ⟨.inr h, rfl⟩

theorem State.writeBytes_outOfBounds (s : State) (hn : 0 < bs.length) (h : 0x1000 < a + bs.length) :
    s.writeBytes a bs = .error .memoryOutOfBounds := by
  rw [State.writeBytes_spec, if_neg]
  rintro (rfl | hle)
  · exact absurd hn (Nat.lt_irrefl 0)
  · omega

theorem length_bcdDigits (b : Byte) : (bcdDigits b).length = 3 := rfl

theorem length_stored (s : State) (x : Reg) : ((regsUpTo x).map s.getV).length = x.val + 1 := by
  rw [List.length_map, length_regsUpTo]

/-! The effect of the instructions whose operands or memory decide it. -/

theorem effect_ldF_of_digit {x : Reg} (h : (s.getV x).toNat ≤ 0xF) :
    (Instr.ldF x).effect s = .ok (s.setI (BitVec.ofNat 16 (5 * (s.getV x).toNat)), s.pc.toNat + 2) :=
  if_neg (Nat.not_lt.2 h)

theorem effect_skp_of_key {x : Reg} (h : (s.getV x).toNat ≤ 0xF) :
    (Instr.skp x).effect s = .ok (s, s.pc.toNat + if s.keys.getLsbD (s.getV x).toNat then 4 else 2) := by
  simp [Instr.effect, Nat.not_lt.2 h, keyDown]

theorem effect_sknp_of_key {x : Reg} (h : (s.getV x).toNat ≤ 0xF) :
    (Instr.sknp x).effect s = .ok (s, s.pc.toNat + if s.keys.getLsbD (s.getV x).toNat then 2 else 4) := by
  cases hk : s.keys.getLsbD (s.getV x).toNat <;> simp [Instr.effect, Nat.not_lt.2 h, keyDown, hk]

/-- The bytes DXYN reads: `n` rows from I on. -/
def State.spriteRows (s : State) (n : Nat) : List Byte := (List.range n).map fun k => s.peek (s.effAddr 0 + k)

/-- The state DXYN leaves before NextPC. -/
def State.drawn (s : State) (x y : Reg) (n : Nat) : State :=
  let dc := drawRows (s.getV x) (s.getV y) 0 (s.spriteRows n) (s.disp, false)
  (s.setDisp dc.1).setV Reg.vf (flagByte dc.2)

theorem effect_drw_of_le {x y : Reg} {m : Nibble} (h : m.toNat = 0 ∨ s.i.toNat + m.toNat ≤ 0x1000) :
    (Instr.drw x y m).effect s = .ok (s.drawn x y m.toNat, s.pc.toNat + 2) := by
  rw [Instr.effect, s.effAddr_zero, State.readBytes_of_le s h]
  rfl

theorem effect_ldB_of_le {x : Reg} (h : s.i.toNat + 2 ≤ 0xFFF) :
    (Instr.ldB x).effect s = .ok (s.pokeBytes s.i.toNat (bcdDigits (s.getV x)), s.pc.toNat + 2) := by
  rw [Instr.effect, s.effAddr_zero, State.writeBytes_of_le s (by rw [length_bcdDigits]; omega)]
  rfl

theorem effect_ldMemVx_of_le {x : Reg} (h : s.i.toNat + x.val ≤ 0xFFF) :
    (Instr.ldMemVx x).effect s = .ok (s.pokeBytes s.i.toNat ((regsUpTo x).map s.getV), s.pc.toNat + 2) := by
  rw [Instr.effect, s.effAddr_zero, State.writeBytes_of_le s (by rw [length_stored]; omega)]
  rfl

theorem effect_ldVxMem_of_le {x : Reg} (h : s.i.toNat + x.val ≤ 0xFFF) :
    (Instr.ldVxMem x).effect s =
      .ok (s.withV fun r => if r ≤ x then s.peek (s.i.toNat + r.val) else s.getV r, s.pc.toNat + 2) := by
  have hload := State.eq_withV _ _ (s.getV_setRegs x fun k => s.peek (s.i.toNat + k)) (State.setRegs_frame _ _ s)
  rw [Instr.effect, s.effAddr_zero, State.readBytes_of_le s (by omega), ← hload]
  rfl

end Sys2Proof.Machine

namespace Sys2Proof

open Machine

/-- Settles O24: an error of the instruction's own is found before NextPC is reached. -/
theorem operandErrorsComeFirst : Obligations.OperandErrorsComeFirst := by
  intro s x y nnn n
  refine ⟨fun hempty => ?ret, exec_call_of_full nnn, fun hx => ⟨?font, ?down, ?up⟩, fun hn hout => ?draw,
    fun hout => ?bcd, fun hout => ⟨?store, ?load⟩⟩
  case ret => exact exec_of_error nofun (congrArg (Except.map _) (if_pos hempty))
  case font | down | up => exact exec_of_error nofun (if_pos hx)
  case draw =>
    exact exec_of_error nofun (congrArg (Except.map _) (s.readBytes_outOfBounds hn (by rw [s.effAddr_zero]; omega)))
  case bcd =>
    refine exec_of_error nofun (congrArg (Except.map _) (s.writeBytes_outOfBounds ?_ ?_))
    · exact Nat.zero_lt_succ 2
    · rw [s.effAddr_zero, length_bcdDigits]
      omega
  case store =>
    refine exec_of_error nofun (congrArg (Except.map _) (s.writeBytes_outOfBounds ?_ ?_))
    · rw [length_stored]
      exact Nat.zero_lt_succ x.val
    · rw [s.effAddr_zero, length_stored]
      omega
  case load =>
    refine exec_of_error nofun (congrArg (Except.map _) (s.readBytes_outOfBounds (Nat.zero_lt_succ x.val) ?_))
    rw [s.effAddr_zero]
    omega

/-- Settles O25: each effect is without error and gives NextPC a target past the end of memory. -/
theorem advancePastMemoryHalts : Obligations.AdvancePastMemoryHalts := by
  intro s x y nn nnn n z
  refine ⟨fun hend i hi => ?advance, fun hend => ⟨fun hx => ?font, fun hkeys => ?wait, fun hin => ?draw,
    fun hin => ?bcd, fun hin => ⟨?store, ?load⟩⟩, fun hend => ?seImm, fun hend => ?sneImm, fun hend => ?seReg,
    fun hend => ?sneReg, fun hx => ⟨fun hend => ?down, fun hend => ?up⟩⟩
  case advance =>
    simp only [List.mem_cons, List.not_mem_nil, or_false] at hi
    obtain rfl | rfl | rfl | rfl | rfl | rfl | rfl | rfl | rfl | rfl | rfl | rfl | rfl | rfl | rfl | rfl | rfl | rfl |
      rfl := hi
    all_goals exact exec_of_outOfRange nofun rfl hend
  case font => exact exec_of_outOfRange nofun (effect_ldF_of_digit hx) hend
  case wait => exact exec_of_outOfRange (fun _ _ => hkeys) rfl hend
  case draw => exact exec_of_outOfRange nofun (effect_drw_of_le hin) hend
  case bcd => exact exec_of_outOfRange nofun (effect_ldB_of_le hin) hend
  case store => exact exec_of_outOfRange nofun (effect_ldMemVx_of_le hin) hend
  case load => exact exec_of_outOfRange nofun (effect_ldVxMem_of_le hin) hend
  case seImm | seReg => exact exec_of_outOfRange nofun rfl (by simpa using hend)
  case sneImm | sneReg => exact exec_of_outOfRange nofun rfl (by simpa using hend)
  case down => exact exec_of_outOfRange nofun (effect_skp_of_key hx) hend
  case up => exact exec_of_outOfRange nofun (effect_sknp_of_key hx) hend

end Sys2Proof
end

section
/-! PROOFS. The inputs of a Step (70_reset R307, D16, D17): an instruction reads the host's list through KEYS and RND
only. -/

namespace Sys2Proof.Machine

/-- The same state with another list of coming transactions. -/
def State.withPending (s : State) (q : List Transaction) : State := { s with pending := q }

variable {s : State} {i : Instr} {q : List Transaction}

theorem map_map {α β γ : Type} (r : Except EngineError α) (f : α → β) (g : β → γ) :
    (r.map f).map g = r.map fun a => g (f a) := by
  cases r <;> rfl

theorem State.pop_withPending (s : State) : (s.withPending q).pop = s.pop.map fun p => (p.1, p.2.withPending q) := by
  change (if s.sp = -1 then _ else _) = (if s.sp = -1 then _ else _ : Except _ _).map _
  split <;> rfl

theorem State.push_withPending (s : State) (a : Word) :
    (s.withPending q).push a = (s.push a).map (·.withPending q) := by
  change (if (s.cfg.stackCapacity : Int) ≤ s.sp + 1 then _ else _) =
    (if (s.cfg.stackCapacity : Int) ≤ s.sp + 1 then _ else _ : Except _ _).map _
  split <;> rfl

theorem State.setRegs_withPending (rs : List Reg) : ∀ (bs : List Byte) (s : State),
    (s.withPending q).setRegs rs bs = (s.setRegs rs bs).withPending q := by
  induction rs with
  | nil => exact fun bs s => rfl
  | cons r rs ih =>
    intro bs s
    cases bs with
    | nil => rfl
    | cons b bs => exact ih bs (s.setV r b)

theorem State.pokeBytes_withPending (bs : List Byte) : ∀ (s : State) (a : Nat),
    (s.withPending q).pokeBytes a bs = (s.pokeBytes a bs).withPending q := by
  induction bs with
  | nil => exact fun s a => rfl
  | cons b bs ih => exact fun s a => ih (s.poke a b) (a + 1)

theorem State.readBytes_withPending (s : State) (a n : Nat) : (s.withPending q).readBytes a n = s.readBytes a n := by
  rw [State.readBytes_spec, State.readBytes_spec]
  rfl

theorem State.writeBytes_withPending (s : State) (a : Nat) (bs : List Byte) :
    (s.withPending q).writeBytes a bs = (s.writeBytes a bs).map fun t => t.withPending q := by
  rw [State.writeBytes_spec, State.writeBytes_spec, State.pokeBytes_withPending]
  split <;> rfl

/-- Where the list does not change an input that the instruction reads, it changes no effect. -/
theorem effect_withPending (hrnd : (∀ x nn, i ≠ .rnd x nn) ∨ (s.withPending q).rnd = s.rnd)
    (hkeys : (∀ x, i ≠ .skp x ∧ i ≠ .sknp x ∧ i ≠ .ldVxK x) ∨ (s.withPending q).keys = s.keys) :
    i.effect (s.withPending q) = (i.effect s).map fun p => (p.1.withPending q, p.2) := by
  cases i with
  | cls | sys | jp | jpV0 | seImm | sneImm | seReg | sneReg | ldImm | addImm | ldReg | orReg | andReg | xorReg
  | addReg | subReg | shr | subnReg | shl | ldI | addI | ldVxDT | ldDTVx | ldSTVx => rfl
  | ret =>
    simp only [Instr.effect, State.pop_withPending, map_map]
  | call =>
    simp only [Instr.effect, State.push_withPending, map_map]
    rfl
  | ldF x =>
    rw [Instr.effect, Instr.effect, apply_ite (Except.map _)]
    rfl
  | rnd x nn =>
    have hr := hrnd.resolve_left fun h => h x nn rfl
    simp only [Instr.effect, hr]
    rfl
  | skp x =>
    have hk := hkeys.resolve_left fun h => (h x).1 rfl
    rw [Instr.effect, Instr.effect, hk, apply_ite (Except.map _)]
    rfl
  | sknp x =>
    have hk := hkeys.resolve_left fun h => (h x).2.1 rfl
    rw [Instr.effect, Instr.effect, hk, apply_ite (Except.map _)]
    rfl
  | ldVxK x =>
    have hk := hkeys.resolve_left fun h => (h x).2.2 rfl
    simp only [Instr.effect, hk]
    rfl
  | drw =>
    simp only [Instr.effect, State.readBytes_withPending, map_map]
    rfl
  | ldVxMem =>
    simp only [Instr.effect, State.readBytes_withPending, State.setRegs_withPending, map_map]
    rfl
  | ldB | ldMemVx =>
    simp only [Instr.effect, State.writeBytes_withPending, map_map]
    rfl

theorem State.nextPC_withPending (s : State) (n : Nat) :
    (s.withPending q).nextPC n = (s.nextPC n).map (·.withPending q) := by
  unfold State.nextPC
  split
  · rfl
  · split <;> rfl

/-- Where the list does not change an input that the instruction reads, it changes nothing in the answer but itself. -/
theorem exec_withPending (hrnd : (∀ x nn, i ≠ .rnd x nn) ∨ (s.withPending q).rnd = s.rnd)
    (hkeys : (∀ x, i ≠ .skp x ∧ i ≠ .sknp x ∧ i ≠ .ldVxK x) ∨ (s.withPending q).keys = s.keys) :
    exec i (s.withPending q) = mapNext (·.withPending q) (exec i s) := by
  by_cases hblock : (∃ x, i = .ldVxK x) ∧ s.keys = 0
  · obtain ⟨⟨x, rfl⟩, hzero⟩ := hblock
    have hk := hkeys.resolve_left fun h => (h x).2.2 rfl
    rw [exec_ldVxK_blocked x hzero, exec_ldVxK_blocked x (hk.trans hzero)]
    rfl
  · have hwait : ∀ x, i = .ldVxK x → s.keys ≠ 0 := fun x hx hzero => hblock ⟨⟨x, hx⟩, hzero⟩
    have hwait' : ∀ x, i = .ldVxK x → (s.withPending q).keys ≠ 0 := by
      rintro x rfl
      rw [hkeys.resolve_left fun h => (h x).2.2 rfl]
      exact hwait x rfl
    rw [exec_eq_complete hwait, exec_eq_complete hwait', effect_withPending hrnd hkeys, bind_map]
    simp only [State.nextPC_withPending]
    cases i.effect s with
    | error e => rfl
    | ok p =>
      change (s.withPending q).complete _ ((p.1.nextPC p.2).map _) = mapNext _ (s.complete _ (p.1.nextPC p.2))
      cases p.1.nextPC p.2 <;> rfl

/-- Once the Step is done its inputs are gone: the states that are left agree when the answers before did. -/
theorem mapNext_consume_withPending (a : Transaction) (r : Result) :
    mapNext State.consume (mapNext (·.withPending (a :: q)) r) = mapNext (·.withPending q) r := by
  cases r <;> rfl

end Sys2Proof.Machine

namespace Sys2Proof

open Machine

/-- Settles O29: of two lists that begin with Steps, the instruction sees only the inputs it reads, and both Steps are
then taken off. -/
theorem onlyKeyAndRandomReadInputs : Obligations.OnlyKeyAndRandomReadInputs := by
  intro i s k k' r r' q
  have hrun (k' : BitVec 16) (r' : Byte) (hrnd : (∀ x nn, i ≠ .rnd x nn) ∨ r' = r)
      (hkeys : (∀ x, i ≠ .skp x ∧ i ≠ .sknp x ∧ i ≠ .ldVxK x) ∨ k' = k) :
      mapNext State.consume (exec i (s.withPending (.step k' r' :: q))) =
        mapNext (·.withPending q) (exec i (s.withPending (.step k r :: q))) := by
    have h := exec_withPending (s := s.withPending (.step k r :: q)) (q := .step k' r' :: q) hrnd hkeys
    exact (congrArg (mapNext State.consume) h).trans (mapNext_consume_withPending _ _)
  have hself := hrun k r (.inr rfl) (.inr rfl)
  exact ⟨fun hrnd => hself.trans (hrun k r' (.inl hrnd) (.inr rfl)).symm,
    fun hkeys => hself.trans (hrun k' r (.inr rfl) (.inl hkeys)).symm⟩

end Sys2Proof
end

section
/-! PROOFS. Frames (60_exceptions R263, D13): what each shape of instruction leaves unchanged, whether it completes,
halts or waits. -/

namespace Sys2Proof.Machine

variable {s t : State} {i : Instr} {e : EngineError} {n : Nat}

theorem ite_error_eq_ok {α : Type} {p : Prop} [Decidable p] {a b : α}
    (h : (if p then .error e else .ok a) = Except.ok b) : a = b := by
  split at h <;> cases h
  rfl

/-- An instruction whose effect writes V only, and of V only registers outside `W`. -/
theorem registers_frame {W : Reg → Prop} (h : exec i s = .next t)
    (heff : ∀ u n, i.effect s = .ok (u, n) → (∃ v, u = { s with v := v }) ∧ ∀ r, W r → u.getV r = s.getV r) :
    s.SameButV t ∧ ∀ r, W r → t.getV r = s.getV r := by
  obtain ⟨u, n, hu, rfl⟩ | ⟨e, rfl⟩ | rfl := exec_ends h
  · obtain ⟨⟨v, rfl⟩, hv⟩ := heff u n hu
    exact ⟨⟨rfl, fun _ => rfl⟩, hv⟩
  · exact ⟨⟨rfl, fun _ => rfl⟩, fun _ _ => rfl⟩
  · exact ⟨⟨rfl, fun _ => rfl⟩, fun _ _ => rfl⟩

/-- One register written. -/
theorem setV_frame {x : Reg} {b : Byte} (h : exec i s = .next t) (heff : i.effect s = .ok (s.setV x b, n)) :
    s.SameButV t ∧ ∀ r, r ≠ x → t.getV r = s.getV r := by
  refine registers_frame h fun u m hu => ?_
  cases heff.symm.trans hu
  exact ⟨⟨_, rfl⟩, fun r hr => (s.getV_setV x r b).trans (if_neg hr)⟩

/-- One register and VF written. -/
theorem setWithFlag_frame {x : Reg} {b : Byte} {f : Bool} (h : exec i s = .next t)
    (heff : i.effect s = .ok (s.setWithFlag x b f, n)) :
    s.SameButV t ∧ ∀ r, r ≠ x ∧ r ≠ 15 → t.getV r = s.getV r := by
  refine registers_frame h fun u m hu => ?_
  cases heff.symm.trans hu
  refine ⟨⟨_, rfl⟩, fun r hr => ?_⟩
  rw [State.setWithFlag_eq_withV, State.getV_withV, if_neg hr.2, if_neg hr.1]

/-- Nothing written before NextPC. -/
theorem pc_frame (h : exec i s = .next t) (heff : ∀ u n, i.effect s = .ok (u, n) → u = s) : s.SameButPc t := by
  obtain ⟨u, n, hu, rfl⟩ | ⟨e, rfl⟩ | rfl := exec_ends h
  · rw [heff u n hu]
    exact ⟨rfl, fun _ => rfl⟩
  · exact ⟨rfl, fun _ => rfl⟩
  · exact ⟨rfl, fun _ => rfl⟩

/-- Only I written. -/
theorem index_frame (h : exec i s = .next t) (heff : ∀ u n, i.effect s = .ok (u, n) → ∃ w, u = s.setI w) :
    t = { s with pc := t.pc, i := t.i, status := t.status, report := t.report } ∧ ∀ a, t.peek a = s.peek a := by
  obtain ⟨u, n, hu, rfl⟩ | ⟨e, rfl⟩ | rfl := exec_ends h
  · obtain ⟨w, rfl⟩ := heff u n hu
    exact ⟨rfl, fun _ => rfl⟩
  · exact ⟨rfl, fun _ => rfl⟩
  · exact ⟨rfl, fun _ => rfl⟩

/-- Only SP and the slots written. -/
theorem stack_frame (h : exec i s = .next t)
    (heff : ∀ u n, i.effect s = .ok (u, n) → ∃ k l, u = { s with sp := k, stack := l }) :
    t = { s with pc := t.pc, sp := t.sp, stack := t.stack, status := t.status, report := t.report } ∧
      ∀ a, t.peek a = s.peek a := by
  obtain ⟨u, n, hu, rfl⟩ | ⟨e, rfl⟩ | rfl := exec_ends h
  · obtain ⟨k, l, rfl⟩ := heff u n hu
    exact ⟨rfl, fun _ => rfl⟩
  · exact ⟨rfl, fun _ => rfl⟩
  · exact ⟨rfl, fun _ => rfl⟩

/-- Only `len` bytes at `effAddr 0` written. -/
theorem store_frame {len : Nat} (h : exec i s = .next t)
    (heff : ∀ u n, i.effect s = .ok (u, n) → ∃ bs, bs.length = len ∧ u = s.pokeBytes (s.effAddr 0) bs) :
    t = { s with mem := t.mem, pc := t.pc, status := t.status, report := t.report } ∧
      ∀ a, (a < s.effAddr 0 ∨ s.effAddr 0 + len ≤ a) → t.peek a = s.peek a := by
  obtain ⟨u, n, hu, rfl⟩ | ⟨e, rfl⟩ | rfl := exec_ends h
  · obtain ⟨bs, rfl, rfl⟩ := heff u n hu
    obtain ⟨hframe, hpeek⟩ := State.pokeBytes_frame bs s (s.effAddr 0)
    refine ⟨?_, hpeek⟩
    rw [hframe]
    rfl
  · exact ⟨rfl, fun _ _ => rfl⟩
  · exact ⟨rfl, fun _ _ => rfl⟩

end Sys2Proof.Machine

namespace Sys2Proof

open Machine

/-- Settles O30: each of them writes one register, one register and VF, or V0..Vx. -/
theorem frameOfRegisterInstructions : Obligations.FrameOfRegisterInstructions := by
  intro s t x y nn
  refine ⟨fun i hi h => ?one, fun i hi h => ?flag, fun h => ?load⟩
  case one =>
    simp only [List.mem_cons, List.not_mem_nil, or_false] at hi
    obtain rfl | rfl | rfl | rfl | rfl | rfl | rfl | rfl | rfl := hi
    all_goals exact setV_frame h rfl
  case flag =>
    simp only [List.mem_cons, List.not_mem_nil, or_false] at hi
    have hframe : s.SameButV t ∧ ∀ r, r ≠ x ∧ r ≠ 15 → t.getV r = s.getV r := by
      obtain rfl | rfl | rfl | rfl | rfl := hi
      all_goals exact setWithFlag_frame h rfl
    exact ⟨hframe.1, fun r hx hvf => hframe.2 r ⟨hx, hvf⟩⟩
  case load =>
    refine registers_frame h fun u n hu => ?_
    obtain ⟨bs, hread, hpair⟩ := map_eq_ok.1 hu
    cases hpair
    rw [State.readBytes_spec] at hread
    split at hread <;> cases hread
    refine ⟨⟨_, State.setRegs_frame _ _ s⟩, fun r hr => ?_⟩
    rw [State.getV_setRegs s x fun k => s.peek (s.effAddr 0 + k), if_neg (not_le.2 hr)]

/-- Settles O31: each of them writes nothing but pc, the stack, I, DT or ST. -/
theorem frameOfControlAndTimerInstructions : Obligations.FrameOfControlAndTimerInstructions := by
  intro s t x y nn nnn z
  refine ⟨fun i hi h => ?pc, fun i hi h => ?stack, fun i hi h => ?index, fun h => ?delay, fun h => ?sound⟩
  case pc =>
    simp only [List.mem_cons, List.not_mem_nil, or_false] at hi
    obtain rfl | rfl | rfl | rfl | rfl | rfl | rfl | rfl | rfl := hi
    all_goals refine pc_frame h fun u n hu => ?_
    iterate 7 exact (congrArg Prod.fst (Except.ok.inj hu)).symm
    iterate 2 exact (congrArg Prod.fst (ite_error_eq_ok hu)).symm
  case stack =>
    simp only [List.mem_cons, List.not_mem_nil, or_false] at hi
    obtain rfl | rfl := hi
    · refine stack_frame h fun u n hu => ?_
      obtain ⟨⟨a, w⟩, hpop, hpair⟩ := map_eq_ok.1 hu
      cases hpair
      obtain ⟨-, -, rfl⟩ := State.pop_eq_ok.1 hpop
      exact ⟨_, _, rfl⟩
    · refine stack_frame h fun u n hu => ?_
      obtain ⟨w, hpush, hpair⟩ := map_eq_ok.1 hu
      cases hpair
      obtain ⟨-, rfl⟩ := State.push_eq_ok.1 hpush
      exact ⟨_, _, rfl⟩
  case index =>
    simp only [List.mem_cons, List.not_mem_nil, or_false] at hi
    obtain rfl | rfl | rfl := hi
    all_goals refine index_frame h fun u n hu => ?_
    iterate 2 exact ⟨_, (congrArg Prod.fst (Except.ok.inj hu)).symm⟩
    exact ⟨_, (congrArg Prod.fst (ite_error_eq_ok hu)).symm⟩
  case delay | sound =>
    obtain ⟨u, n, hu, rfl⟩ | ⟨e, rfl⟩ | rfl := exec_ends h
    · cases hu
      exact ⟨rfl, fun _ => rfl⟩
    · exact ⟨rfl, fun _ => rfl⟩
    · exact ⟨rfl, fun _ => rfl⟩

/-- Settles O32: what each writes is its bytes at `effAddr 0`. -/
theorem frameOfStores : Obligations.FrameOfStores := by
  intro s t x
  refine ⟨fun h => store_frame h fun u n hu => ?bcd, fun h => store_frame h fun u n hu => ?regs⟩
  case bcd =>
    obtain ⟨w, hw, hpair⟩ := map_eq_ok.1 hu
    cases hpair
    exact ⟨_, length_bcdDigits _, (State.writeBytes_eq_ok.1 hw).2⟩
  case regs =>
    obtain ⟨w, hw, hpair⟩ := map_eq_ok.1 hu
    cases hpair
    exact ⟨_, length_stored s x, (State.writeBytes_eq_ok.1 hw).2⟩

/-- Settles O33: 00E0 writes the display, DXYN the display and VF. -/
theorem frameOfDisplayInstructions : Obligations.FrameOfDisplayInstructions := by
  intro s t x y n
  refine ⟨fun h => ?clear, fun h => ?draw⟩
  case clear =>
    obtain ⟨u, n, hu, rfl⟩ | ⟨e, rfl⟩ | rfl := exec_ends h
    · cases hu
      exact ⟨rfl, fun _ => rfl⟩
    · exact ⟨rfl, fun _ => rfl⟩
    · exact ⟨rfl, fun _ => rfl⟩
  case draw =>
    obtain ⟨u, n, hu, rfl⟩ | ⟨e, rfl⟩ | rfl := exec_ends h
    · obtain ⟨rows, -, hpair⟩ := map_eq_ok.1 hu
      cases hpair
      exact ⟨rfl, fun r hr => (State.getV_setV _ Reg.vf r _).trans (if_neg hr), fun _ => rfl⟩
    · exact ⟨rfl, fun _ _ => rfl, fun _ => rfl⟩
    · exact ⟨rfl, fun _ _ => rfl, fun _ => rfl⟩

end Sys2Proof
end

section
/-! PROOFS. Control flow (40_control_flow section 2) and key skips (44_timer_input section 2): targets and skips. -/

namespace Sys2Proof.Machine

variable {s u : State} {i : Instr} {k : Nat} {x y : Reg} {nn : Byte} {z : Nibble}

/-- An instruction that advances: its writes, and pc `k` further on. -/
theorem exec_of_room (hkey : ∀ x, i = .ldVxK x → s.keys ≠ 0) (h : i.effect s = .ok (u, s.pc.toNat + k))
    (hpc : u.pc = s.pc) (hk : k = 2 ∨ k = 4) (hroom : s.RoomFor k) : exec i s = .next (u.moved k i.tag) := by
  obtain ⟨heven, hlt⟩ := hroom
  rw [State.moved, hpc]
  exact exec_of_effect hkey h hlt (by omega)

theorem effect_seImm :
    (Instr.seImm x nn).effect s = .ok (s, s.pc.toNat + if (s.getV x).toNat = nn.toNat then 4 else 2) := by
  simp [Instr.effect, BitVec.toNat_inj]

theorem effect_sneImm :
    (Instr.sneImm x nn).effect s = .ok (s, s.pc.toNat + if (s.getV x).toNat = nn.toNat then 2 else 4) := by
  simp [Instr.effect, BitVec.toNat_inj]

theorem effect_seReg :
    (Instr.seReg x y z).effect s = .ok (s, s.pc.toNat + if (s.getV x).toNat = (s.getV y).toNat then 4 else 2) := by
  simp [Instr.effect, BitVec.toNat_inj]

theorem effect_sneReg :
    (Instr.sneReg x y z).effect s = .ok (s, s.pc.toNat + if (s.getV x).toNat = (s.getV y).toNat then 2 else 4) := by
  simp [Instr.effect, BitVec.toNat_inj]

theorem effect_call_of_free (nnn : Addr12) (h : s.sp + 1 < s.cfg.stackCapacity) :
    (Instr.call nnn).effect s = .ok
      ({ s with sp := s.sp + 1, stack := s.stack.set (s.sp + 1).toNat (BitVec.ofNat 16 (s.pc.toNat + 2)) },
        nnn.toNat) :=
  congrArg (Except.map _) (State.push_of_free _ h)

theorem effect_ret_of_sp (h : s.sp ≠ -1) :
    Instr.ret.effect s = .ok ({ s with sp := s.sp - 1 }, (s.slot s.sp.toNat).toNat) :=
  congrArg (Except.map _) (State.pop_of_sp h)

end Sys2Proof.Machine

namespace Sys2Proof

open Machine

/-- Settles O34: the exact target goes to NextPC, which tests the range first; a 12-bit target is never out of range. -/
theorem jumpTargets : Obligations.JumpTargets := by
  intro s nnn
  constructor
  · split
    case isTrue heven => exact exec_of_effect nofun rfl nnn.isLt heven
    case isFalse hodd => exact exec_of_misaligned nofun rfl nnn.isLt (Nat.mod_two_ne_zero.1 hodd)
  · dsimp only
    split
    case isTrue hge => exact exec_of_outOfRange nofun rfl hge
    case isFalse hlt =>
      split
      case isTrue heven => exact exec_of_effect nofun rfl (Nat.not_le.1 hlt) heven
      case isFalse hodd => exact exec_of_misaligned nofun rfl (Nat.not_le.1 hlt) (Nat.mod_two_ne_zero.1 hodd)

/-- Settles O36: the push succeeds, so the target alone decides; the slot written is the new top. -/
theorem callPushesReturnAddress : Obligations.CallPushesReturnAddress := by
  rintro s nnn ⟨hlen, hbot, -⟩ ⟨-, hpc⟩ hfree
  refine ⟨fun heven => ⟨_, exec_call_of_free hfree heven, rfl, ?top, fun k hk => ?other⟩, fun hodd => ?odd⟩
  case top => rw [State.slot_of_stack_eq_set (s := s) rfl (by omega), toNat_ofNat16 (by omega)]
  case other => exact State.slot_of_stack_eq_set_ne rfl hk
  case odd => exact exec_of_misaligned nofun (effect_call_of_free nnn hfree) nnn.isLt hodd

/-- Settles O37: in a session the address on top is even, so NextPC refuses it only when it is 0x1000. -/
theorem returnPopsTheTop : Obligations.ReturnPopsTheTop := by
  intro s hs
  refine ⟨fun hempty => ?empty, fun hsp hlt => ?pops, fun hsp htop => ?range⟩
  case empty => exact exec_of_error nofun (congrArg (Except.map _) (if_pos hempty))
  case pops =>
    obtain ⟨-, hbot, -⟩ := hs.stack
    obtain ⟨heven, -⟩ := hs.returns s.sp.toNat (by omega)
    exact exec_ret_of_top hsp hlt heven
  case range =>
    refine exec_of_outOfRange nofun (effect_ret_of_sp hsp) ?_
    rw [htop]
    decide

/-- Settles O39: the two skips differ in the branch that takes 4. -/
theorem skipOnImmediate : Obligations.SkipOnImmediate := fun _ _ _ =>
  ⟨exec_of_room nofun effect_seImm rfl skipWidth, exec_of_outOfRange nofun effect_seImm,
    exec_of_room nofun effect_sneImm rfl skipWidth_swap, exec_of_outOfRange nofun effect_sneImm⟩

/-- Settles O40: the low nibble is not read, and a register equals itself. -/
theorem skipOnRegisters : Obligations.SkipOnRegisters := by
  intro s x y z
  refine ⟨exec_of_room nofun effect_seReg rfl skipWidth, exec_of_room nofun effect_sneReg rfl skipWidth_swap,
    exec_of_room nofun ?_ rfl (.inr rfl), exec_of_room nofun ?_ rfl (.inl rfl)⟩
  · rw [effect_seReg, if_pos rfl]
  · rw [effect_sneReg, if_pos rfl]

/-- Settles O59: with a code in Vx the key in KEYS decides the width. -/
theorem skipOnKey : Obligations.SkipOnKey := by
  intro s x keys r q hp hx
  have hkeys : s.keys = keys := by rw [State.keys, hp]
  rw [← hkeys]
  exact ⟨exec_of_room nofun (effect_skp_of_key hx) rfl skipWidth,
    exec_of_room nofun (effect_sknp_of_key hx) rfl skipWidth_swap⟩

end Sys2Proof
end

section
/-! PROOFS. Registers and ALU (41_alu), and the key that FX0A takes (44_timer_input section 4): each writes Vx, or Vx
and VF, and advances by 2. -/

namespace Sys2Proof.Machine

variable {s : State} {i : Instr} {x : Reg} {b b' g : Byte} {f : Bool}

/-- An instruction that writes Vx and advances. -/
theorem exec_setV_of_room (hkey : ∀ x, i = .ldVxK x → s.keys ≠ 0) (h : i.effect s = .ok (s.setV x b, s.pc.toNat + 2))
    (hb : b = b') (hroom : s.RoomFor 2) :
    exec i s = .next ((s.withV fun r => if r = x then b' else s.getV r).moved 2 i.tag) := by
  rw [← hb, ← State.setV_eq_withV]
  exact exec_of_room hkey h rfl (.inl rfl) hroom

/-- An instruction that writes Vx and then VF and advances: with x = 15 the flag stays (D6). -/
theorem exec_setWithFlag_of_room (hkey : ∀ x, i = .ldVxK x → s.keys ≠ 0)
    (h : i.effect s = .ok (s.setWithFlag x b f, s.pc.toNat + 2)) (hf : flagByte f = g) (hb : b = b')
    (hroom : s.RoomFor 2) :
    exec i s = .next ((s.withV fun r => if r = 15 then g else if r = x then b' else s.getV r).moved 2 i.tag) := by
  rw [← hf, ← hb]
  exact (exec_of_room hkey h rfl (.inl rfl) hroom).trans (by rw [State.setWithFlag_eq_withV])

/-! The results and the flags as numbers. -/

theorem add_eq_ofNat (a b : Byte) : a + b = BitVec.ofNat 8 ((a.toNat + b.toNat) % 256) := by
  apply BitVec.eq_of_toNat_eq
  simp

theorem sub_eq_ofNat {a b : Byte} (h : b.toNat ≤ a.toNat) : a - b = BitVec.ofNat 8 (a.toNat - b.toNat) := by
  bv_omega

theorem sub_eq_ofNat_mod (a b : Byte) : a - b = BitVec.ofNat 8 ((256 + a.toNat - b.toNat) % 256) := by
  bv_omega

theorem saturated_eq_ofNat (a b : Byte) : (if borrowFlag a b then 0 else a - b) =
    if a.toNat < b.toNat then 0 else BitVec.ofNat 8 (a.toNat - b.toNat) := by
  by_cases h : a.toNat < b.toNat
  · simp [borrowFlag, h]
  · simp [borrowFlag, h, sub_eq_ofNat (Nat.not_lt.1 h)]

theorem ushiftRight_eq_ofNat (a : Byte) : a >>> 1 = BitVec.ofNat 8 (a.toNat / 2) := by
  apply BitVec.eq_of_toNat_eq
  simp [Nat.shiftRight_eq_div_pow]
  omega

theorem shiftLeft_eq_ofNat (a : Byte) : a <<< 1 = BitVec.ofNat 8 (2 * a.toNat % 256) := by
  apply BitVec.eq_of_toNat_eq
  simp [Nat.shiftLeft_eq, Nat.mul_comm]

theorem flagByte_decide (p : Prop) [Decidable p] : flagByte (decide p) = if p then 1 else 0 := by
  by_cases h : p <;> simp [flagByte, h]

/-- A flag that is bit `k` of a byte, as a number. -/
theorem flagByte_getLsbD (a : Byte) (k : Nat) : flagByte (a.getLsbD k) = BitVec.ofNat 8 (a.toNat / 2 ^ k % 2) := by
  rw [BitVec.getLsbD, Nat.testBit_eq_decide_div_mod_eq, flagByte_decide]
  obtain h | h := Nat.mod_two_eq_zero_or_one (a.toNat / 2 ^ k) <;> rw [h] <;> rfl

theorem flagByte_lowBit (a : Byte) : flagByte (lowBit a) = BitVec.ofNat 8 (a.toNat % 2) := by
  rw [lowBit, flagByte_getLsbD, Nat.pow_zero, Nat.div_one]

theorem flagByte_highBit (a : Byte) : flagByte (highBit a) = BitVec.ofNat 8 (a.toNat / 128) := by
  have hlt : a.toNat / 2 ^ 7 < 2 := by omega
  rw [highBit, flagByte_getLsbD, Nat.mod_eq_of_lt hlt]
  rfl

end Sys2Proof.Machine

namespace Sys2Proof

open Machine

/-- Settles O41: each writes Vx alone and advances. -/
theorem loadAndAddImmediate : Obligations.LoadAndAddImmediate := by
  intro s x nn
  refine ⟨fun hroom => ⟨exec_setV_of_room nofun rfl rfl hroom, exec_setV_of_room nofun rfl (add_eq_ofNat _ _) hroom⟩,
    fun hpc => ?_⟩
  have hend : 0x1000 ≤ s.pc.toNat + 2 := by
    rw [hpc]
    decide
  exact ⟨exec_of_outOfRange nofun rfl hend, exec_of_outOfRange nofun rfl hend⟩

/-- Settles O42: each writes Vx alone and advances. -/
theorem moveAndLogic : Obligations.MoveAndLogic := by
  intro s x y
  refine ⟨fun hroom => ⟨exec_setV_of_room nofun rfl rfl hroom, exec_setV_of_room nofun rfl rfl hroom,
    exec_setV_of_room nofun rfl rfl hroom, exec_setV_of_room nofun rfl rfl hroom⟩, fun hpc i hi => ?_⟩
  have hend : 0x1000 ≤ s.pc.toNat + 2 := by
    rw [hpc]
    decide
  simp only [List.mem_cons, List.not_mem_nil, or_false] at hi
  obtain rfl | rfl | rfl | rfl := hi
  all_goals exact exec_of_outOfRange nofun rfl hend

/-- Settles O43: the sum mod 256 to Vx, then the carry to VF. -/
theorem addSetsCarry : Obligations.AddSetsCarry := fun _ _ _ =>
  exec_setWithFlag_of_room nofun rfl (flagByte_decide _) (add_eq_ofNat _ _)

/-- Settles O44: without a borrow the difference is exact; with one the result is 0. -/
theorem subtractSaturates : Obligations.SubtractSaturates := fun _ _ _ =>
  exec_setWithFlag_of_room nofun rfl (flagByte_decide _) (saturated_eq_ofNat _ _)

/-- Settles O45: a shift is a division by 2 or a doubling, and the bit shifted out is the remainder or the top bit. -/
theorem shiftsMoveOneBit : Obligations.ShiftsMoveOneBit := fun _ _ _ hroom =>
  ⟨exec_setWithFlag_of_room nofun rfl (flagByte_lowBit _) (ushiftRight_eq_ofNat _) hroom,
    exec_setWithFlag_of_room nofun rfl (flagByte_highBit _) (shiftLeft_eq_ofNat _) hroom⟩

/-- Settles O46: the difference wraps, and the flag is the strict comparison. -/
theorem reverseSubtractWraps : Obligations.ReverseSubtractWraps := fun _ _ _ =>
  exec_setWithFlag_of_room nofun rfl (flagByte_decide _) (sub_eq_ofNat_mod _ _)

/-- Settles O47: RND is the byte of the Step at the head of the host's list. -/
theorem randomIsMasked : Obligations.RandomIsMasked := by
  intro s x nn r keys q hroom hp
  have hrnd : s.rnd = r := by rw [State.rnd, hp]
  refine ⟨exec_setV_of_room nofun rfl ?_ hroom, exec_setV_of_room nofun rfl BitVec.and_zero hroom⟩
  rw [hrnd]

/-- Settles O60: the scan from key 0 finds no key or the lowest one. -/
theorem keyWaitTakesLowestKey : Obligations.KeyWaitTakesLowestKey := by
  intro s x keys r q hp
  have hkeys : s.keys = keys := by rw [State.keys, hp]
  refine ⟨fun hzero => exec_ldVxK_blocked x (hkeys.trans hzero), fun k hroom hk hlow => ?_⟩
  have hfirst : firstPressed s.keys = some k := hkeys ▸ firstPressed_eq_some hk hlow
  have hne : s.keys ≠ 0 := fun hzero => by simp [firstPressed_eq_none.2 hzero] at hfirst
  exact exec_setV_of_room (fun _ _ => hne) rfl (by rw [hfirst, Option.getD_some]) hroom

end Sys2Proof
end

section
/-! PROOFS. The address register and memory transfer (42_addressing section 2). -/

namespace Sys2Proof.Machine

variable {s : State} {x : Reg} {a k : Nat} {bs : List Byte} {g : Tag}

theorem toNat_ofNat8 {n : Nat} (h : n < 0x100) : (BitVec.ofNat 8 n).toNat = n :=
  (BitVec.toNat_ofNat n 8).trans (Nat.mod_eq_of_lt h)

theorem addrImm_toNat (nnn : Addr12) : (addrImm nnn).toNat = nnn.toNat :=
  BitVec.toNat_setWidth_of_le (by decide)

/-- A store that advances changes memory, pc and the report. -/
theorem moved_pokeBytes (s : State) (a k : Nat) (bs : List Byte) (g : Tag) :
    (s.pokeBytes a bs).moved k g =
      { s with mem := ((s.pokeBytes a bs).moved k g).mem, pc := BitVec.ofNat 16 (s.pc.toNat + k),
               report := .outcome g } := by
  rw [(State.pokeBytes_frame bs s a).1]
  rfl

/-- A store inside memory that advances. -/
theorem exec_ldB_of_room (hroom : s.RoomFor 2) (hin : s.i.toNat + 2 ≤ 0xFFF) :
    exec (.ldB x) s = .next ((s.pokeBytes s.i.toNat (bcdDigits (s.getV x))).moved 2 .normal) :=
  exec_of_room nofun (effect_ldB_of_le hin) (s.pokeBytes_pc _ _) (.inl rfl) hroom

theorem exec_ldMemVx_of_room (hroom : s.RoomFor 2) (hin : s.i.toNat + x.val ≤ 0xFFF) :
    exec (.ldMemVx x) s = .next ((s.pokeBytes s.i.toNat ((regsUpTo x).map s.getV)).moved 2 .normal) :=
  exec_of_room nofun (effect_ldMemVx_of_le hin) (s.pokeBytes_pc _ _) (.inl rfl) hroom

/-- Entry r of what FX55 stores is Vr. -/
theorem getD_stored (s : State) {x r : Reg} (h : r ≤ x) : ((regsUpTo x).map s.getV).getD r.val 0 = s.getV r := by
  have hlt : r.val < (regsUpTo x).length := by
    rw [length_regsUpTo]
    exact Nat.lt_succ_of_le h
  have hr : (regsUpTo x)[r.val] = r := Fin.ext (getElem_regsUpTo x r.val hlt)
  rw [List.getD_eq_getElem?_getD, List.getElem?_map, List.getElem?_eq_getElem hlt, hr]
  rfl

end Sys2Proof.Machine

namespace Sys2Proof

open Machine

/-- Settles O48: I receives the 12-bit address, or 5 Vx for a digit. -/
theorem loadsOfI : Obligations.LoadsOfI := by
  intro s x nnn
  refine ⟨fun hroom => ⟨_, exec_of_room nofun rfl rfl (.inl rfl) hroom, addrImm_toNat nnn, rfl⟩, fun hroom hx => ?digit,
    fun hx => exec_of_error nofun (if_pos hx), fun hpc => ?atEnd⟩
  case digit =>
    exact ⟨_, exec_of_room nofun (effect_ldF_of_digit hx) rfl (.inl rfl) hroom, toNat_ofNat16 (by omega), rfl⟩
  case atEnd =>
    have hend : 0x1000 ≤ s.pc.toNat + 2 := by
      rw [hpc]
      decide
    exact ⟨exec_of_outOfRange nofun rfl hend, fun hx => exec_of_outOfRange nofun (effect_ldF_of_digit hx) hend⟩

/-- Settles O49: I receives the sum, as a 16-bit word. -/
theorem addToIWraps : Obligations.AddToIWraps := fun _ _ hroom =>
  ⟨_, exec_of_room nofun rfl rfl (.inl rfl) hroom, BitVec.toNat_ofNat _ 16, rfl⟩

/-- Settles O50: the three digits are stored from I on, each below 10. -/
theorem bcdStoresThreeDigits : Obligations.BcdStoresThreeDigits := by
  intro s x hroom hmem hin
  obtain ⟨hok, hpeek⟩ := State.pokeBytes_spec (bcdDigits (s.getV x)) s s.i.toNat (by rw [length_bcdDigits]; omega) hmem
  have hlt : (s.getV x).toNat < 256 := (s.getV x).isLt
  refine ⟨_, exec_ldB_of_room hroom hin, moved_pokeBytes .., ?hundreds, ?tens, ?ones,
    (State.pokeBytes_frame (bcdDigits (s.getV x)) s s.i.toNat).2, hok⟩
  case hundreds =>
    exact (congrArg BitVec.toNat (hpeek 0 (by simp [bcdDigits]))).trans (toNat_ofNat8 (by omega))
  case tens =>
    exact (congrArg BitVec.toNat (hpeek 1 (by simp [bcdDigits]))).trans (toNat_ofNat8 (by omega))
  case ones =>
    exact (congrArg BitVec.toNat (hpeek 2 (by simp [bcdDigits]))).trans (toNat_ofNat8 (by omega))

/-- Settles O51: entry r of the bytes stored is Vr. -/
theorem storeRegisters : Obligations.StoreRegisters := by
  intro s x hroom hmem hin
  have hlen := length_stored s x
  obtain ⟨hok, hpeek⟩ := State.pokeBytes_spec ((regsUpTo x).map s.getV) s s.i.toNat (by omega) hmem
  have hother := (State.pokeBytes_frame ((regsUpTo x).map s.getV) s s.i.toNat).2
  rw [hlen] at hother
  refine ⟨_, exec_ldMemVx_of_room hroom hin, moved_pokeBytes .., fun r hr => ?_, hother, hok⟩
  have hlt : r.val < ((regsUpTo x).map s.getV).length := by
    rw [hlen]
    exact Nat.lt_succ_of_le hr
  rw [State.peek_moved, hpeek r.val hlt, getD_stored s hr]

/-- Settles O52: byte k from I goes to Vk, and the registers above x stay. -/
theorem loadRegisters : Obligations.LoadRegisters := fun _ _ hroom hin =>
  exec_of_room nofun (effect_ldVxMem_of_le hin) (State.withV_pc _ _) (.inl rfl) hroom

/-- Settles O53: FX55 leaves I, so FX65 reads the bytes it stored. -/
theorem storeThenLoadRestores : Obligations.StoreThenLoadRestores := by
  intro s x f hroom hmem hin
  obtain ⟨heven, hlt⟩ := hroom
  obtain ⟨t, ht, hframe, hstored, -, -⟩ := storeRegisters s x ⟨heven, by omega⟩ hmem hin
  have hi : t.i = s.i := by rw [hframe]
  have hpc : t.pc.toNat = s.pc.toNat + 2 := by
    rw [hframe]
    exact toNat_ofNat16 (by omega)
  have hload := loadRegisters (t.withV f) x (by rw [State.RoomFor, State.withV_pc, hpc]; omega)
    (by rw [State.withV_i, hi]; exact hin)
  refine ⟨t, _, ht, hload, fun r hr => ?_, hi, ?_⟩
  · rw [State.getV_moved, State.getV_withV, if_pos hr, State.withV_i, State.peek_withV, hi, hstored r hr]
  · rw [State.moved_i, State.withV_i, State.withV_i, hi]

end Sys2Proof
end

section
/-! PROOFS. DXYN (43_display section 2): every pixel XORed, the collision, and drawing twice or on a clear display
(R214). -/

namespace Sys2Proof.Machine

variable {s : State} {x y : Reg} {n : Nat}

theorem length_spriteRows (s : State) (n : Nat) : (s.spriteRows n).length = n := by
  rw [State.spriteRows, List.length_map, List.length_range]

/-- The bits of the rows DXYN reads are the sprite's. -/
theorem rowsBit_spriteRows (s : State) (vx vy : Byte) (n : Nat) (px : Fin 64) (py : Fin 32) :
    rowsBit vx vy (s.spriteRows n) px py = s.spriteBit vx vy n px py := by
  simp only [rowsBit, State.spriteBit, length_spriteRows]
  by_cases hr : (py.val + 32 - vy.toNat % 32) % 32 < n
  · have hrow : (s.spriteRows n).getD ((py.val + 32 - vy.toNat % 32) % 32) 0 =
        s.peek (s.effAddr ((py.val + 32 - vy.toNat % 32) % 32)) := by
      rw [State.spriteRows, List.getD_eq_getElem?_getD, List.getElem?_map, List.getElem?_range hr]
      rfl
    rw [hrow]
  · simp [hr]

/-! The state DXYN leaves. -/

theorem State.drawn_pc (s : State) (x y : Reg) (n : Nat) : (s.drawn x y n).pc = s.pc := rfl
theorem State.drawn_i (s : State) (x y : Reg) (n : Nat) : (s.drawn x y n).i = s.i := rfl
theorem State.peek_drawn (s : State) (x y : Reg) (n a : Nat) : (s.drawn x y n).peek a = s.peek a := rfl

theorem State.getV_drawn_of_ne (s : State) (x y : Reg) (n : Nat) {r : Reg} (hr : r ≠ 15) :
    (s.drawn x y n).getV r = s.getV r :=
  (State.getV_setV _ Reg.vf r _).trans (if_neg hr)

theorem State.getV_drawn_vf (s : State) (x y : Reg) (n : Nat) : (s.drawn x y n).getV 15 =
    flagByte (drawRows (s.getV x) (s.getV y) 0 (s.spriteRows n) (s.disp, false)).2 :=
  (State.getV_setV _ Reg.vf 15 _).trans (if_pos rfl)

/-- A 4-bit row count is below the height of the display, so no pixel is plotted twice. -/
theorem State.pixel_drawn (s : State) (x y : Reg) (hn : n ≤ 32) (px : Fin 64) (py : Fin 32) :
    (s.drawn x y n).pixel px py = (s.pixel px py ^^ s.spriteBit (s.getV x) (s.getV y) n px py) := by
  have h := get_drawRows (s.getV x) (s.getV y) (s.spriteRows n) (by rwa [length_spriteRows]) s.disp false px py
  rwa [rowsBit_spriteRows] at h

theorem State.collision_drawn (s : State) (x y : Reg) (hn : n ≤ 32) :
    (drawRows (s.getV x) (s.getV y) 0 (s.spriteRows n) (s.disp, false)).2 = true ↔
      ∃ px py, s.pixel px py = true ∧ s.spriteBit (s.getV x) (s.getV y) n px py = true := by
  rw [collision_drawRows _ _ _ (by rwa [length_spriteRows])]
  simp only [rowsBit_spriteRows]
  rfl

theorem State.getV_drawn_vf_of_collision (hn : n ≤ 32)
    (h : ∃ px py, s.pixel px py = true ∧ s.spriteBit (s.getV x) (s.getV y) n px py = true) :
    (s.drawn x y n).getV 15 = 1 := by
  rw [State.getV_drawn_vf, (s.collision_drawn x y hn).2 h]
  rfl

theorem State.getV_drawn_vf_of_clear (hn : n ≤ 32)
    (h : ∀ px py, s.pixel px py = false ∨ s.spriteBit (s.getV x) (s.getV y) n px py = false) :
    (s.drawn x y n).getV 15 = 0 := by
  have hno : (drawRows (s.getV x) (s.getV y) 0 (s.spriteRows n) (s.disp, false)).2 = false := by
    rw [Bool.eq_false_iff, ne_eq, s.collision_drawn x y hn]
    rintro ⟨px, py, hon, hbit⟩
    obtain hoff | hzero := h px py
    · simp [hon] at hoff
    · simp [hbit] at hzero
  rw [State.getV_drawn_vf, hno]
  rfl

/-- The sprite is what memory holds from I on. -/
theorem State.spriteBit_congr {s t : State} (hi : t.i = s.i) (hmem : ∀ a, t.peek a = s.peek a) (vx vy : Byte) (n : Nat)
    (px : Fin 64) (py : Fin 32) : t.spriteBit vx vy n px py = s.spriteBit vx vy n px py := by
  simp only [State.spriteBit, State.effAddr, hi, hmem]

/-- A second draw of the same sprite takes back the first. -/
theorem State.disp_drawn_twice {s t : State} (hn : n ≤ 32) (hdisp : t.disp = (s.drawn x y n).disp) (hi : t.i = s.i)
    (hmem : ∀ a, t.peek a = s.peek a) (hx : t.getV x = s.getV x) (hy : t.getV y = s.getV y) :
    (t.drawn x y n).disp = s.disp := by
  refine Display.ext_get fun px py => ?_
  have hfirst : t.pixel px py = (s.drawn x y n).pixel px py := congrArg (Display.get · px py) hdisp
  calc (t.drawn x y n).pixel px py
    _ = (t.pixel px py ^^ s.spriteBit (s.getV x) (s.getV y) n px py) := by
      rw [t.pixel_drawn x y hn, hx, hy, State.spriteBit_congr hi hmem]
    _ = s.pixel px py := by rw [hfirst, s.pixel_drawn x y hn, Bool.xor_assoc, Bool.xor_self, Bool.xor_false]

theorem exec_drw_of_room {m : Nibble} (hroom : s.RoomFor 2) (hin : m.toNat = 0 ∨ s.i.toNat + m.toNat ≤ 0x1000) :
    exec (.drw x y m) s = .next ((s.drawn x y m.toNat).moved 2 .displayDirty) :=
  exec_of_room nofun (effect_drw_of_le hin) rfl (.inl rfl) hroom

/-- A row count of 4 bits. -/
theorem rows_le (m : Nibble) : m.toNat ≤ 32 := m.isLt.le.trans (by decide)

/-- After an advance by 2 there is room for the next one. -/
theorem State.roomFor_two_after {s t : State} (hroom : s.RoomFor 4) (ht : t.pc = BitVec.ofNat 16 (s.pc.toNat + 2)) :
    t.RoomFor 2 := by
  obtain ⟨heven, hlt⟩ := hroom
  rw [State.RoomFor, ht, toNat_ofNat16 (by omega)]
  omega

/-- R214, first half: the registers restored, a second DXYN takes back the first. -/
theorem exec_drw_twice {m : Nibble} (hroom : s.RoomFor 4) (hin : m.toNat = 0 ∨ s.i.toNat + m.toNat ≤ 0x1000) :
    ∃ t u, exec (.drw x y m) s = .next t ∧ exec (.drw x y m) (t.withV s.getV) = .next u ∧ u.disp = s.disp := by
  refine ⟨_, _, exec_drw_of_room ⟨hroom.1, by omega⟩ hin,
    exec_drw_of_room (State.roomFor_two_after hroom ?pc) ?bounds, ?twice⟩
  case pc => rw [State.withV_pc, State.moved_pc, State.drawn_pc]
  case bounds => rwa [State.withV_i, State.moved_i, State.drawn_i]
  case twice =>
    rw [State.moved_disp]
    refine State.disp_drawn_twice (rows_le m) ?_ ?_ (fun a => ?_) (State.getV_withV _ _ x) (State.getV_withV _ _ y)
    · rw [State.withV_disp, State.moved_disp]
    · rw [State.withV_i, State.moved_i, State.drawn_i]
    · rw [State.peek_withV, State.peek_moved, State.peek_drawn]

/-- R214, second half: after 00E0 every pixel is off, so the sprite's bits stand alone and nothing collides. -/
theorem exec_drw_after_cls {m : Nibble} (hroom : s.RoomFor 4) (hin : m.toNat = 0 ∨ s.i.toNat + m.toNat ≤ 0x1000) :
    ∃ c t, exec .cls s = .next c ∧ exec (.drw x y m) c = .next t ∧ t.getV 15 = 0 ∧
      ∀ px py, t.pixel px py = s.spriteBit (s.getV x) (s.getV y) m.toNat px py := by
  let c := (s.setDisp Display.blank).moved 2 .displayDirty
  have hoff (px : Fin 64) (py : Fin 32) : c.pixel px py = false := Display.get_blank px py
  have hbit := State.spriteBit_congr (s := s) (t := c) rfl (fun _ => rfl) (s.getV x) (s.getV y) m.toNat
  refine ⟨c, _, exec_cls_of_room ⟨hroom.1, by omega⟩, exec_drw_of_room (State.roomFor_two_after hroom rfl) hin,
    State.getV_drawn_vf_of_clear (rows_le m) fun px py => .inl (hoff px py), fun px py => ?_⟩
  calc (c.drawn x y m.toNat).pixel px py
    _ = (c.pixel px py ^^ c.spriteBit (s.getV x) (s.getV y) m.toNat px py) := c.pixel_drawn x y (rows_le m) px py
    _ = s.spriteBit (s.getV x) (s.getV y) m.toNat px py := by rw [hoff, hbit, Bool.false_xor]

end Sys2Proof.Machine

namespace Sys2Proof

open Machine

/-- Settles O56: DXYN leaves `State.drawn`. -/
theorem drawXorsTheSprite : Obligations.DrawXorsTheSprite := by
  intro s x y n hroom hin
  exact ⟨_, exec_drw_of_room hroom hin, rfl, s.pixel_drawn x y (rows_le n), fun r hr => s.getV_drawn_of_ne x y _ hr,
    State.getV_drawn_vf_of_collision (rows_le n), State.getV_drawn_vf_of_clear (rows_le n)⟩

/-- Settles O57: the second draw has the same coordinates, I and memory, so it XORs the same bits again; and a blank
display takes the bits as they are. -/
theorem drawTwiceAndDrawOnClear : Obligations.DrawTwiceAndDrawOnClear :=
  fun _ _ _ _ hroom hin => ⟨exec_drw_twice hroom hin, exec_drw_after_cls hroom hin⟩

end Sys2Proof
end
